-- ==== Sys2Proof/Word.lean ====
section
/-! DEFINITION. The two value types of the core (`00_scope.md` R5): unsigned bytes and unsigned 32-bit words.
Nothing in the core is signed. -/

namespace Sys2Proof

/-- An unsigned integer of 8 bits (R5). -/
abbrev Byte := BitVec 8

/-- An unsigned integer of 32 bits; bit 0 is the least significant (R5). -/
abbrev Word := BitVec 32

/-- Index of a word of the working state `X` (R10). -/
abbrev Idx := Fin 16

end Sys2Proof
end

