-- ==== Sys2Proof/Config.lean ====
section
/-! DEFINITION. The OPEN parameters of `00_scope.md` R4: arguments of the model that no proof can evaluate, so that a
claim holds for every value of them. The values R3 and R4 fix stand where they are used. -/

namespace Sys2Proof

/-- `TEST_HOOK` (R4, R25): whether the host may read `X`, `UPC` and `QR_COUNT`. Free (log 6). -/
opaque Config.testHook : Bool

/-- `RESET_X` (R4, R24): word `i` of `X` after the reset with draw number `draw`. Free (log 3). -/
opaque Config.resetX (draw i : Nat) : Word

/-- `RESET_KEY` (R4, R24): byte `k` of `KEY` after the reset with draw number `draw`. Free (log 4). -/
opaque Config.resetKey (draw k : Nat) : Byte

/-- `RESET_NONCE` (R4, R24): byte `k` of `NONCE` after the reset with draw number `draw`. Free (log 4). -/
opaque Config.resetNonce (draw k : Nat) : Byte

/-- `RESET_OUT` (R4, R24): byte `k` of `OUT` after the reset with draw number `draw`. Free (log 4). -/
opaque Config.resetOut (draw k : Nat) : Byte

/-- `T_UOP` (R4, R151): the duration of a micro-operation. No rule reads it and nothing of the model does (log 14). -/
opaque Config.tUop : Nat

end Sys2Proof
end

