-- ==== Sys2Proof/Syntax.lean ====
section
/-! DEFINITION. The instructions: one constructor per row of `spec/opcode_table.json`. `deriveKey` is the host command
(`30_encoding.md` R51); the other six are the micro-operations of `UROM` (R58, R62). -/

namespace Sys2Proof

/-- Source buffer of `UNPK`: the field `s` of R55 (0 = `KEY`, 1 = `NONCE`). -/
inductive Source where
  | key
  | nonce
deriving DecidableEq, Repr

/-- The host command and the six micro-operations, with their operand fields (R51, R53 to R57). -/
inductive Instr where
  /-- `DERIVEKEY`, format H (R51); its operands are the state the host set up. -/
  | deriveKey
  /-- `CHK`, format Z (R53). -/
  | chk
  /-- `LDC i,k`, format C (R54): destination word, index into `CONST`. -/
  | ldc (i : Idx) (k : Fin 4)
  /-- `UNPK i,s,wo`, format U (R55): destination word, source buffer, word offset. -/
  | unpk (i : Idx) (s : Source) (wo : Fin 8)
  /-- `QR a,b,c,d`, format Q (R56): four words of `X`. -/
  | qr (a b c d : Idx)
  /-- `PACK i,wo`, format P (R57): source word, word offset into `OUT`. -/
  | pack (i : Idx) (wo : Fin 8)
  /-- `END`, format Z (R53). -/
  | endOp
deriving DecidableEq, Repr

/-- Whether the instruction is a micro-operation, that is a word of the sequencer's space (R50). -/
def Instr.isUop : Instr → Bool
  | .deriveKey => false
  | .chk | .ldc _ _ | .unpk _ _ _ | .qr _ _ _ _ | .pack _ _ | .endOp => true

end Sys2Proof
end

