-- ==== Sys2Proof/WellFormed.lean ====
section
/-! DEFINITION. Which instruction terms an encoding admits. The ranges of the operands are in their types; two
constraints of `30_encoding.md` R59 are left: the slice of `UNPK` lies inside its buffer, and the four indices of `QR`
are pairwise distinct. -/

namespace Sys2Proof

/-- The slice `wo` lies inside the source buffer: 0 to 7 for `KEY`, 0 to 3 for `NONCE` (R34, R55, R59). -/
def sliceInBuffer (s : Source) (wo : Fin 8) : Bool :=
  match s with
  | .key => true
  | .nonce => decide (wo.val < 4)

/-- No two of the four indices are equal (R56, R59). -/
def pairwiseDistinct (a b c d : Idx) : Bool :=
  decide (a ≠ b ∧ a ≠ c ∧ a ≠ d ∧ b ≠ c ∧ b ≠ d ∧ c ≠ d)

/-- The instruction has an encoding that R59 does not reserve. -/
def Instr.wellFormed : Instr → Bool
  | .unpk _ s wo => sliceInBuffer s wo
  | .qr a b c d => pairwiseDistinct a b c d
  | .deriveKey | .chk | .ldc _ _ | .pack _ _ | .endOp => true

end Sys2Proof
end

