-- ==== Sys2Proof/Decode.lean ====
section
/-! DEFINITION. The decoder of `30_encoding.md` R64 and R51, total on 32-bit words and rejecting by name, and the
encoder. The two encoding spaces (R50) have a decoder each: `decodeUop` for a word of a micro-program, `decodeCommand`
for a word written to `CTRL`. -/

namespace Sys2Proof

/-- Why a word has no meaning (R51, R59). -/
inductive Reject where
  /-- The opcode `u[31:28]` is 0 or 7 to 15. -/
  | reservedOpcode
  /-- A bit that the opcode's format does not name as a field is 1. -/
  | unnamedBit
  /-- `UNPK` from `NONCE` with `wo >= 4`. -/
  | nonceOffset
  /-- `QR` with two equal indices. -/
  | equalIndices
  /-- Not a command: bit 0 (`START`) of the word written to `CTRL` is 0. -/
  | startClear
deriving DecidableEq, Repr

/-- The decoder's answer: an instruction or `invalid`, with the reason. -/
inductive Decoded where
  | ok (i : Instr)
  | invalid (why : Reject)
deriving DecidableEq, Repr

/-- The 4-bit field `u[lo+3 : lo]`. -/
def nibbleAt (u : Word) (lo : Nat) : Fin 16 := Fin.ofNat 16 (u >>> lo).toNat

/-- The opcode field `u[31:28]` (R52). -/
def opcode (u : Word) : Fin 16 := nibbleAt u 28

/-- The opcodes R58 gives to a micro-operation. -/
def opcodeAssigned (u : Word) : Bool := decide (1 ≤ (opcode u).val ∧ (opcode u).val ≤ 6)

/-- The field `s` of format U: bit 8 (R55). -/
def sourceField (u : Word) : Source := if u.getLsbD 8 then .nonce else .key

/-- The field `wo` of formats U and P: bits 2:0 (R55, R57). -/
def offsetField (u : Word) : Fin 8 := Fin.ofNat 8 u.toNat

/-- The field `k` of format C: bits 1:0 (R54). -/
def constField (u : Word) : Fin 4 := Fin.ofNat 4 u.toNat

/-- Format U once its pattern is met (R55, R59, R64). -/
def decodeUnpk (u : Word) : Decoded :=
  if sliceInBuffer (sourceField u) (offsetField u) then
    .ok (.unpk (nibbleAt u 12) (sourceField u) (offsetField u))
  else .invalid .nonceOffset

/-- Format Q once its pattern is met (R56, R59, R64). -/
def decodeQr (u : Word) : Decoded :=
  if pairwiseDistinct (nibbleAt u 12) (nibbleAt u 8) (nibbleAt u 4) (nibbleAt u 0) then
    .ok (.qr (nibbleAt u 12) (nibbleAt u 8) (nibbleAt u 4) (nibbleAt u 0))
  else .invalid .equalIndices

/-- `decode` of R64: a micro-operation word. -/
def decodeUop (u : Word) : Decoded :=
  if u = 0x10000000#32 then .ok .chk
  else if u &&& 0xFFFF0FFC#32 = 0x20000000#32 then .ok (.ldc (nibbleAt u 12) (constField u))
  else if u &&& 0xFFFF0EF8#32 = 0x30000000#32 then decodeUnpk u
  else if u &&& 0xFFFF0000#32 = 0x40000000#32 then decodeQr u
  else if u &&& 0xFFFF0FF8#32 = 0x50000000#32 then .ok (.pack (nibbleAt u 12) (offsetField u))
  else if u = 0x60000000#32 then .ok .endOp
  else if opcodeAssigned u then .invalid .unnamedBit
  else .invalid .reservedOpcode

/-- A word written to `CTRL` (R51): bit 0 set is `DERIVEKEY`, whatever bits 31:1 are. -/
def decodeCommand (w : Word) : Decoded :=
  if w.getLsbD 0 then .ok .deriveKey else .invalid .startClear

/-- An index operand in its place. -/
def putIdx (i : Idx) (lo : Nat) : Word := BitVec.ofNat 32 i.val <<< lo

/-- The field `s` in its place (R55). -/
def putSource : Source → Word
  | .key => 0#32
  | .nonce => 0x100#32

/-- `encode` of R64: the match value of the format or'ed with each field shifted to its position. -/
def encode : Instr → Word
  | .deriveKey => 0x00000001#32
  | .chk => 0x10000000#32
  | .ldc i k => 0x20000000#32 ||| putIdx i 12 ||| BitVec.ofNat 32 k.val
  | .unpk i s wo => 0x30000000#32 ||| putIdx i 12 ||| putSource s ||| BitVec.ofNat 32 wo.val
  | .qr a b c d => 0x40000000#32 ||| putIdx a 12 ||| putIdx b 8 ||| putIdx c 4 ||| putIdx d 0
  | .pack i wo => 0x50000000#32 ||| putIdx i 12 ||| BitVec.ofNat 32 wo.val
  | .endOp => 0x60000000#32

/-- The instruction of a decoder's answer. -/
def Decoded.instr? : Decoded → Option Instr
  | .ok i => some i
  | .invalid _ => none

/-- A table word as one 32-bit word; the bits from `nbits` up are 0. -/
def tableWord (nbits w : Nat) : Word := BitVec.ofNat 32 (w % 2 ^ nbits)

/-- Which of the two spaces (R50) a word of the opcode table is read in, the table giving no space bit: a word that meets
the pattern of a micro-operation, a reserved form of `UNPK` or `QR` included, is a micro-operation word, any other a
host command. DESIGN CHOICE (log 12): the hardware never has to choose, since a word of `UROM` and a word written to
`CTRL` reach it by different ways. -/
def inUopSpace (u : Word) : Bool :=
  match decodeUop u with
  | .ok _ | .invalid .nonceOffset | .invalid .equalIndices => true
  | .invalid .reservedOpcode | .invalid .unnamedBit | .invalid .startClear => false

/-- The instruction a row of the opcode table stands for. -/
def decodeTableWord (nbits w : Nat) : Option Instr :=
  if inUopSpace (tableWord nbits w) then (decodeUop (tableWord nbits w)).instr?
  else (decodeCommand (tableWord nbits w)).instr?

end Sys2Proof
end

