-- ==== Sys2Proof/Machine/Urom.lean ====
section
/-! DEFINITION. The micro-program of `30_encoding.md` R60, word by word as its table prints it: `CHK`, the macro
`INIT`, ten times the eight words of a double-round, the macro `EXTRACT`, `END`. -/

namespace Sys2Proof.Machine

/-- Words 1 to 16: the macro `INIT` (R60, R63). -/
def initWords : List Word :=
  [0x20000000#32, 0x20001001#32, 0x20002002#32, 0x20003003#32,
   0x30004000#32, 0x30005001#32, 0x30006002#32, 0x30007003#32,
   0x30008004#32, 0x30009005#32, 0x3000A006#32, 0x3000B007#32,
   0x3000C100#32, 0x3000D101#32, 0x3000E102#32, 0x3000F103#32]

/-- Words `17 + 8(r-1)` to `24 + 8(r-1)`: one double-round, column pass then diagonal pass (R60, R63). -/
def doubleRoundWords : List Word :=
  [0x4000048C#32, 0x4000159D#32, 0x400026AE#32, 0x400037BF#32,
   0x400005AF#32, 0x400016BC#32, 0x4000278D#32, 0x4000349E#32]

/-- Words 97 to 104: the macro `EXTRACT` (R60, R63). -/
def extractWords : List Word :=
  [0x50000000#32, 0x50001001#32, 0x50002002#32, 0x50003003#32,
   0x5000C004#32, 0x5000D005#32, 0x5000E006#32, 0x5000F007#32]

/-- `UROM`: 106 words, at `UPC` 0 to 105 (R60). -/
def urom : List Word :=
  0x10000000#32 :: (initWords ++ (List.replicate 10 doubleRoundWords).flatten ++ extractWords ++ [0x60000000#32])

end Sys2Proof.Machine
end

