-- ==== Sys2Proof/Machine/State.lean ====
section
/-! DEFINITION. The state of one instance of the core (`10_state.md` R10 to R20), plain data, and its reset value
(R24). The last four fields of `State` are the model's own: the micro-program, the pending events, the answer of the
latest host read, and the number of the reset draw. -/

namespace Sys2Proof.Machine

/-- The code in `ERR_PARAM` bits 1:0 (R17, R121). -/
inductive ErrParam where
  /-- 0: no error recorded. -/
  | none
  /-- 1: the length of `output`. -/
  | output
  /-- 2: the length of `inputKey`. -/
  | inputKey
  /-- 3: the length of `nonce`. -/
  | nonce
deriving DecidableEq, Repr

/-- One host access to the map, by byte offset (R22, R37): width and direction, and the data of a write. -/
inductive HostAccess where
  | read8 (off : Nat)
  | read16 (off : Nat)
  | read32 (off : Nat)
  | write8 (off : Nat) (v : Byte)
  | write16 (off : Nat) (v : BitVec 16)
  | write32 (off : Nat) (v : Word)
deriving DecidableEq, Repr

/-- The answer of a host read. -/
inductive HostData where
  | byte (v : Byte)
  | word (v : Word)
deriving DecidableEq, Repr

/-- Whose move comes next in the total order of R41. -/
inductive Event where
  /-- The host makes an access. -/
  | host (a : HostAccess)
  /-- The sequencer takes one step (it has none while idle). -/
  | sequencer
  /-- The reset input (R140). -/
  | reset
deriving DecidableEq, Repr

/-- The state of one instance (R10 to R20), then the model's own four fields. -/
structure State where
  /-- `X[0..15]` (R10). -/
  x : Vector Word 16
  /-- The bytes of `KEY`, `NONCE` and `OUT` written since reset, by host-map offset (R11 to R13, R22). -/
  mem : List Host.Cell
  /-- `OUT_LEN` (R14). -/
  outLen : Word
  /-- `KEY_LEN` (R14). -/
  keyLen : Word
  /-- `NONCE_LEN` (R14). -/
  nonceLen : Word
  /-- `STATUS` bit 0 (R16). -/
  busy : Bool
  /-- `STATUS` bit 1 (R16). -/
  done : Bool
  /-- `STATUS` bit 2 (R16). -/
  error : Bool
  /-- `ERR_PARAM` (R17). -/
  errParam : ErrParam
  /-- `ERR_ACTUAL` (R17). -/
  errActual : Word
  /-- `ERR_EXPECTED` (R17). -/
  errExpected : Word
  /-- `UPC`, the micro-program counter (R19). -/
  upc : BitVec 7
  /-- `QR_COUNT` (R20). -/
  qrCount : BitVec 7
  /-- Model's own: the micro-program the sequencer fetches, `UROM` in the hardware (R21, D30; log 1). -/
  prog : List Word
  /-- Model's own: the events still to come, oldest first (R41; log 2). -/
  inputs : List Event
  /-- Model's own: what the latest host read answered (log 7). -/
  readData : Option HostData
  /-- Model's own: the number of the reset draw in force (log 5). -/
  resetDraws : Nat
deriving DecidableEq, Repr

/-- What stops the machine with a fault: nothing. The one exception, `InvalidLength`, is a next state (R123), and R126
says that there is no other failure. -/
inductive Fault where
deriving DecidableEq, Repr

/-- The situations the spec gives no meaning (`refuse`, R6). Every one is safe: nothing is concluded about them. -/
inductive Refusal where
  /-- An instruction that has no meaning in this model yet; raised by `exec`'s arms only. Safe. -/
  | notModelled (mnemonic : String)
  /-- A reserved micro-operation word or form (R59, U3); raised by the sequencer's step, `UNPK` and `QR`. Safe. -/
  | reservedWord (why : Reject)
  /-- A fetch beyond the last word of the micro-program (R65, U13); raised by the sequencer's step. Safe. -/
  | fetchBeyondProgram
  /-- `UPC` would pass 127, beyond every program its 7 bits can index (R19, U13; log 8); raised by the
  micro-operations that advance it. Safe. -/
  | upcOverflow
  /-- `QR_COUNT` would pass 127 (R90, U13); raised by `QR`. Safe. -/
  | qrCountOverflow
  /-- A host access outside the shapes of R37 (U4); raised by the host's step. Safe. -/
  | hostAccess
deriving DecidableEq, Repr

/-- What a step of this machine answers. -/
abbrev Result := Host.Outcome State Fault Refusal

/-- `X` after the reset with draw number `draw`: unspecified (R24; log 3). -/
def resetWords (draw : Nat) : Vector Word 16 := Vector.ofFn fun i : Idx => Config.resetX draw i.val

/-- The machine right after its first reset (R24, R140). `X` and the buffers hold the free values of draw 0. -/
def State.reset : State where
  x := resetWords 0
  mem := []
  outLen := 0#32
  keyLen := 0#32
  nonceLen := 0#32
  busy := false
  done := false
  error := false
  errParam := .none
  errActual := 0#32
  errExpected := 0#32
  upc := 0#7
  qrCount := 0#7
  prog := urom
  inputs := []
  readData := Option.none
  resetDraws := 0

end Sys2Proof.Machine
end

