-- ==== Sys2Proof/Machine/Flags.lean ====
section
/-! DEFINITION. The status fields and the error record: how `STATUS` and `ERR_PARAM` read as words (`10_state.md` R16,
R17) and what the length check finds (`40_derivekey_validate.md` R72). The datapath has no flags (`44_quarter_round.md`
R115). -/

namespace Sys2Proof.Machine

/-- One bit of a register word. -/
def flagBit (b : Bool) (pos : Nat) : Word := if b then 1#32 <<< pos else 0#32

/-- `STATUS` as the host reads it: `BUSY`, `DONE`, `ERROR` in bits 0, 1, 2; bits 31:3 read as 0 (R16). -/
def State.statusWord (s : State) : Word := flagBit s.busy 0 ||| flagBit s.done 1 ||| flagBit s.error 2

/-- The code of a parameter in `ERR_PARAM` (R17, R121). -/
def ErrParam.code : ErrParam → Word
  | .none => 0#32
  | .output => 1#32
  | .inputKey => 2#32
  | .nonce => 3#32

/-- The three fields of `STATUS` written together. -/
def State.setStatus (s : State) (busy done error : Bool) : State :=
  { s with busy := busy, done := done, error := error }

/-- The error record written together (R17). -/
def State.setErrorRecord (s : State) (p : ErrParam) (actual expected : Word) : State :=
  { s with errParam := p, errActual := actual, errExpected := expected }

/-- The first failing comparison of `CHK`, in the order output, inputKey, nonce: the parameter, its declared length and
the required one (R72, R121, R122). The comparisons are on all 32 bits. -/
def State.lengthError (s : State) : Option (ErrParam × Word × Word) :=
  if s.outLen ≠ 32#32 then some (.output, s.outLen, 32#32)
  else if s.keyLen ≠ 32#32 then some (.inputKey, s.keyLen, 32#32)
  else if s.nonceLen ≠ 16#32 then some (.nonce, s.nonceLen, 16#32)
  else none

end Sys2Proof.Machine
end

