-- ==== Sys2Proof/Machine/Ops.lean ====
section
/-! DEFINITION. The named operations the meanings share: the byte memory of the three buffers, the registers `X`, the
advance of `UPC`, the accepted `START`, raising `InvalidLength`, the end of a command, and reset. -/

namespace Sys2Proof.Machine

/-! ### The byte memory

`KEY`, `NONCE` and `OUT` are windows of the host map (R22), so one memory keyed by host-map offset holds them. It lists
the bytes written since reset, at strictly rising offsets; every other byte of a buffer holds its reset draw. -/

/-- Host-map offset of `KEY[0]` (R22). -/
def keyBase : Nat := 0x80

/-- Host-map offset of `NONCE[0]` (R22). -/
def nonceBase : Nat := 0xA0

/-- Host-map offset of `OUT[0]` (R22). -/
def outBase : Nat := 0xC0

/-- The offsets that hold a buffer byte: `0x80..0x9F`, `0xA0..0xAF`, `0xC0..0xDF` (R22, R37). -/
def isBufferAddr (a : Nat) : Bool := decide (0x80 ≤ a ∧ a < 0xB0 ∨ 0xC0 ≤ a ∧ a < 0xE0)

/-- What an unlisted offset of a buffer reads as: the unspecified contents drawn at the reset (R24, U6, U16; log 4). -/
def Memory.unlisted (draw a : Nat) : Byte :=
  if a < nonceBase then Config.resetKey draw (a - keyBase)
  else if a < outBase then Config.resetNonce draw (a - nonceBase)
  else Config.resetOut draw (a - outBase)

/-- The listed byte at an offset. -/
def Memory.lookup : List Host.Cell → Nat → Option Byte
  | [], _ => none
  | (k, v) :: t, a => if a = k then some v else Memory.lookup t a

/-- The byte at an offset: the listed one, or the reset draw. -/
def Memory.read (draw : Nat) (m : List Host.Cell) (a : Nat) : Byte :=
  (Memory.lookup m a).getD (Memory.unlisted draw a)

/-- The memory with the byte at one offset written, in its place. -/
def Memory.write : List Host.Cell → Nat → Byte → List Host.Cell
  | [], a, b => [(a, b)]
  | (k, v) :: t, a, b =>
    if a < k then (a, b) :: (k, v) :: t
    else if a = k then (a, b) :: t
    else (k, v) :: Memory.write t a b

/-- The canonical form from an offset up: strictly rising offsets, each of a buffer byte. -/
def Memory.wfFrom : Nat → List Host.Cell → Bool
  | _, [] => true
  | lo, (k, _) :: t => decide (lo ≤ k) && isBufferAddr k && Memory.wfFrom (k + 1) t

/-- The canonical form of the memory. -/
def Memory.wf (m : List Host.Cell) : Bool := Memory.wfFrom 0 m

/-- The buffer byte at a host-map offset. -/
def State.readByte (s : State) (a : Nat) : Byte := Memory.read s.resetDraws s.mem a

/-- Write of the buffer byte at a host-map offset. -/
def State.writeByte (s : State) (a : Nat) (b : Byte) : State := { s with mem := Memory.write s.mem a b }

/-! ### The working state -/

/-- `X[i]` (R6, R10). -/
def State.readX (s : State) (i : Idx) : Word := s.x[i]

/-- `X[i] <- v` (R6, R10). -/
def State.writeX (s : State) (i : Idx) (v : Word) : State := { s with x := s.x.set i v }

/-! ### Sequencing -/

/-- `upc <- UPC + 1` (R19). -/
def State.bumpUpc (s : State) : State := { s with upc := s.upc + 1#7 }

/-- The advance of every micro-operation that does not end the command (R19, R65). `UPC` never wraps: past 127 there is
no word a program could have (U13; log 8). -/
def State.advance (s : State) : Result := if s.upc = 127#7 then .refused .upcOverflow else .next s.bumpUpc

/-- An accepted `START` (R71). -/
def State.start (s : State) : State :=
  { (s.setStatus true false false).setErrorRecord .none 0#32 0#32 with qrCount := 0#7, upc := 0#7 }

/-- `raise InvalidLength(p, actual, expected)`, the one exception (R123): the record is written, `BUSY` falls, `ERROR`
rises, and nothing else changes. Nothing is saved and control goes nowhere; there is no return from it (R125), the next
accepted `START` clears it. -/
def State.raiseInvalidLength (s : State) (p : ErrParam) (actual expected : Word) : State :=
  (s.setErrorRecord p actual expected).setStatus false s.done true

/-- The end of a command by `END` (R103): `BUSY` falls and `DONE` rises. -/
def State.finish (s : State) : State := s.setStatus false true s.error

/-! ### Reset -/

/-- The reset event (R140), in a running command too (R142): control state to its reset values (R24), `X` and the
buffers to a fresh draw, numbered one higher (log 5); several instances read one family of draws (log 17). The fields
that are no state of the core stay (log 13). -/
def State.resetEvent (s : State) : State :=
  { State.reset with
    x := resetWords (s.resetDraws + 1)
    resetDraws := s.resetDraws + 1
    prog := s.prog
    inputs := s.inputs
    readData := s.readData }

end Sys2Proof.Machine
end

