-- ==== Sys2Proof/Machine/Control.lean ====
section
/-! DEFINITION. The instructions that start, check and end a command: `DERIVEKEY` (`40_derivekey_validate.md` R71),
`CHK` (R72), `END` (`43_extract_pack.md` R103). -/

namespace Sys2Proof.Machine

/-- `DERIVEKEY`, the host's `START` (R71): dropped while a command runs. -/
def execDeriveKey (s : State) : Result := if s.busy then .next s else .next s.start

/-- `CHK` (R72): the length check. -/
def execChk (s : State) : Result :=
  match s.lengthError with
  | some (p, actual, expected) => .next (s.raiseInvalidLength p actual expected)
  | none => s.advance

/-- `END` (R103). -/
def execEnd (s : State) : Result := .next s.finish

end Sys2Proof.Machine
end

