-- ==== Sys2Proof/Machine/QuarterRound.lean ====
section
/-! DEFINITION. The quarter-round datapath (`44_quarter_round.md` R110 to R113): three word operations and the function
`QRF`. No flag, no trap, no data-dependent control (R115, R116). -/

namespace Sys2Proof.Machine

/-- `add32`: addition modulo `2^32` (R110). -/
def add32 (x y : Word) : Word := x + y

/-- `xor32` (R111). -/
def xor32 (x y : Word) : Word := x ^^^ y

/-- `rotl32(x, n)`, with a logical right shift, for the amounts 1 to 31 that R112 defines and no other (D27, U12). -/
def rotl32 (x : Word) (n : Nat) (_amount : 1 ≤ n ∧ n ≤ 31) : Word := (x <<< n) ||| (x >>> (32 - n))

/-- The four words a quarter-round takes and returns (R113). -/
structure Quad where
  a : Word
  b : Word
  c : Word
  d : Word
deriving DecidableEq, Repr

/-- `QRF(a, b, c, d)`: the twelve statements of R113, in their order. -/
def qrf (q : Quad) : Quad :=
  let a := add32 q.a q.b
  let d := xor32 q.d a
  let d := rotl32 d 16 (by decide)
  let c := add32 q.c d
  let b := xor32 q.b c
  let b := rotl32 b 12 (by decide)
  let a := add32 a b
  let d := xor32 d a
  let d := rotl32 d 8 (by decide)
  let c := add32 c d
  let b := xor32 b c
  let b := rotl32 b 7 (by decide)
  ⟨a, b, c, d⟩

end Sys2Proof.Machine
end

