-- ==== Sys2Proof/Machine/Mixer.lean ====
section
/-! DEFINITION. The micro-operation `QR` (`42_state_mixer.md` R90). -/

namespace Sys2Proof.Machine

/-- The four words of a quarter-round, all read before any is written (R90). -/
def State.readQuad (s : State) (a b c d : Idx) : Quad := ⟨s.readX a, s.readX b, s.readX c, s.readX d⟩

/-- The four words written back (R90). -/
def State.writeQuad (s : State) (a b c d : Idx) (q : Quad) : State :=
  (((s.writeX a q.a).writeX b q.b).writeX c q.c).writeX d q.d

/-- `QR_COUNT <- QR_COUNT + 1` (R20, R90). -/
def State.countQr (s : State) : State := { s with qrCount := s.qrCount + 1#7 }

/-- `QR a,b,c,d` (R90); repeated indices are a reserved form (R59), a 128th `QR` of a command is refused (R90, U13). -/
def execQr (a b c d : Idx) (s : State) : Result :=
  if pairwiseDistinct a b c d then
    if s.qrCount = 127#7 then .refused .qrCountOverflow
    else (s.writeQuad a b c d (qrf (s.readQuad a b c d))).countQr.advance
  else .refused (.reservedWord .equalIndices)

end Sys2Proof.Machine
end

