-- ==== Sys2Proof/Machine/Operands.lean ====
section
/-! DEFINITION. The operand forms of the micro-operations: the constants of `LDC`, the four-byte slices of `UNPK` and
`PACK`, and the little-endian unpacker and packer (`20_memory.md` R31 to R36). -/

namespace Sys2Proof.Machine

/-- `CONST[k]` (R7, R81). -/
def constWord (k : Fin 4) : Word :=
  match k with
  | 0 => 0x61707865#32
  | 1 => 0x3320646e#32
  | 2 => 0x79622d32#32
  | 3 => 0x6b206574#32

/-- `le32(b0, b1, b2, b3)`: the word whose bytes are these, the first the least significant (R32). -/
def le32 (b0 b1 b2 b3 : Byte) : Word := b3 ++ b2 ++ b1 ++ b0

/-- Byte `n` of a word, 0 the least significant: one entry of `le32bytes(w)` (R33). -/
def byteOfWord (w : Word) (n : Nat) : Byte := w.extractLsb' (8 * n) 8

/-- Host-map offset of a source buffer's first byte. -/
def sourceBase : Source → Nat
  | .key => keyBase
  | .nonce => nonceBase

/-- Host-map offset of the slice `B[4*wo]` that `UNPK` reads (R35, R82). -/
def sliceAddr (s : Source) (wo : Fin 8) : Nat := sourceBase s + 4 * wo.val

/-- Host-map offset of the slice `OUT[4*wo]` that `PACK` writes (R35, R102). -/
def outAddr (wo : Fin 8) : Nat := outBase + 4 * wo.val

/-- `le32` of `MemRead(B, off, 4)`, the slice given by its host-map offset (R82). -/
def State.readWordLE (s : State) (a : Nat) : Word :=
  le32 (s.readByte a) (s.readByte (a + 1)) (s.readByte (a + 2)) (s.readByte (a + 3))

/-- `MemWrite(B, off, 4, le32bytes(w))`, the slice given by its host-map offset (R102). -/
def State.writeWordLE (s : State) (a : Nat) (w : Word) : State :=
  (((s.writeByte a (byteOfWord w 0)).writeByte (a + 1) (byteOfWord w 1)).writeByte (a + 2)
    (byteOfWord w 2)).writeByte (a + 3) (byteOfWord w 3)

end Sys2Proof.Machine
end

