-- ==== Sys2Proof/Machine/Transfer.lean ====
section
/-! DEFINITION. The micro-operations that move one word: `LDC` (`41_init_unpack.md` R81), `UNPK` (R82), `PACK`
(`43_extract_pack.md` R102). -/

namespace Sys2Proof.Machine

/-- `LDC i,k` (R81). -/
def execLdc (i : Idx) (k : Fin 4) (s : State) : Result := (s.writeX i (constWord k)).advance

/-- `UNPK i,s,wo` (R82); the reserved form `NONCE` with `wo >= 4` is refused (R59). -/
def execUnpk (i : Idx) (src : Source) (wo : Fin 8) (s : State) : Result :=
  if sliceInBuffer src wo then (s.writeX i (s.readWordLE (sliceAddr src wo))).advance
  else .refused (.reservedWord .nonceOffset)

/-- `PACK i,wo` (R102). -/
def execPack (i : Idx) (wo : Fin 8) (s : State) : Result := (s.writeWordLE (outAddr wo) (s.readX i)).advance

end Sys2Proof.Machine
end

