-- ==== Sys2Proof/Machine/Dispatch.lean ====
section
/-! DEFINITION. The effect of one instruction: one arm per constructor, each one call of its meaning. -/

namespace Sys2Proof.Machine

def exec (i : Instr) (s : State) : Host.Outcome State Fault Refusal :=
  match i with
  | .deriveKey => Sys2Proof.Machine.execDeriveKey s
  | .chk => Sys2Proof.Machine.execChk s
  | .ldc x k => Sys2Proof.Machine.execLdc x k s
  | .unpk x src wo => Sys2Proof.Machine.execUnpk x src wo s
  | .qr a b c d => Sys2Proof.Machine.execQr a b c d s
  | .pack x wo => Sys2Proof.Machine.execPack x wo s
  | .endOp => Sys2Proof.Machine.execEnd s

end Sys2Proof.Machine
end

