-- ==== Sys2Proof/Machine/HostPort.lean ====
section
/-! DEFINITION. The host's side: the register map (`10_state.md` R22), the allowed access shapes (`20_memory.md` R37),
writes while busy (R38), side effects (R39) and the test hook (`10_state.md` R25). -/

namespace Sys2Proof.Machine

/-- The 32-bit registers of the host map (R22). -/
inductive HostReg where
  | ctrl | status | outLen | keyLen | nonceLen | errParam | errActual | errExpected
  | outputSize | keySize | nonceSize | upc | qrCount
  | x (i : Idx)
deriving DecidableEq, Repr

/-- The register map of R22 below the `X` window: offset and register. -/
def controlMap : List (Nat × HostReg) :=
  [(0x00, .ctrl), (0x04, .status), (0x08, .outLen), (0x0C, .keyLen), (0x10, .nonceLen),
   (0x14, .errParam), (0x18, .errActual), (0x1C, .errExpected),
   (0x20, .outputSize), (0x24, .keySize), (0x28, .nonceSize), (0x2C, .upc), (0x30, .qrCount)]

/-- The register a 32-bit access at an offset reaches; none where R37 allows no such access. -/
def regAt (off : Nat) : Option HostReg :=
  if off % 4 = 0 ∧ 0x40 ≤ off ∧ off < 0x80 then some (.x (Fin.ofNat 16 ((off - 0x40) / 4)))
  else controlMap.lookup off

/-- `OUTPUT_SIZE`, hardwired (R18). -/
def outputSize : Word := 32#32

/-- `KEY_SIZE`, hardwired (R18). -/
def keySize : Word := 32#32

/-- `NONCE_SIZE`, hardwired (R18). -/
def nonceSize : Word := 16#32

/-- A test-only register as the host sees it: its value when `TEST_HOOK` is true, else 0 (R25). -/
def hooked (v : Word) : Word := if Config.testHook then v else 0#32

/-- A host read of a register (R14 to R20, R22, R25). No read has a side effect (R36). -/
def State.readReg (s : State) : HostReg → Word
  | .ctrl => 0#32
  | .status => s.statusWord
  | .outLen => s.outLen
  | .keyLen => s.keyLen
  | .nonceLen => s.nonceLen
  | .errParam => s.errParam.code
  | .errActual => s.errActual
  | .errExpected => s.errExpected
  | .outputSize => outputSize
  | .keySize => keySize
  | .nonceSize => nonceSize
  | .upc => hooked (s.upc.setWidth 32)
  | .qrCount => hooked (s.qrCount.setWidth 32)
  | .x i => hooked (s.readX i)

/-- A word written to `CTRL`: the command it holds, or nothing where bit 0 is 0 (R15, R51). -/
def writeCtrl (w : Word) (s : State) : Result :=
  match decodeCommand w with
  | .ok i => exec i s
  | .invalid _ => .next s

/-- `OUT_LEN` written (R14). -/
def State.setOutLen (s : State) (w : Word) : State := { s with outLen := w }

/-- `KEY_LEN` written (R14). -/
def State.setKeyLen (s : State) (w : Word) : State := { s with keyLen := w }

/-- `NONCE_LEN` written (R14). -/
def State.setNonceLen (s : State) (w : Word) : State := { s with nonceLen := w }

/-- The answer of a host read, put where the host finds it (log 7). -/
def State.answer (s : State) (v : HostData) : State := { s with readData := some v }

/-- A host write of a register while idle: the length registers take it, `CTRL` may hold the command, every other
register ignores it (R14, R15, R39). -/
def writeReg (r : HostReg) (w : Word) (s : State) : Result :=
  match r with
  | .ctrl => writeCtrl w s
  | .outLen => .next (s.setOutLen w)
  | .keyLen => .next (s.setKeyLen w)
  | .nonceLen => .next (s.setNonceLen w)
  | .status | .errParam | .errActual | .errExpected | .outputSize | .keySize | .nonceSize | .upc | .qrCount
  | .x _ => .next s

/-- A host write takes effect only while idle; while a command runs it changes nothing (R38). -/
def whenIdle (s : State) (effect : Result) : Result := if s.busy then .next s else effect

/-- One host access (R37 to R39). A shape R37 does not allow is refused, while busy too (log 9). -/
def hostAccess (a : HostAccess) (s : State) : Result :=
  match a with
  | .read32 off =>
    match regAt off with
    | some r => .next (s.answer (.word (s.readReg r)))
    | none => .refused .hostAccess
  | .write32 off w =>
    match regAt off with
    | some r => whenIdle s (writeReg r w s)
    | none => .refused .hostAccess
  | .read8 off =>
    if isBufferAddr off then .next (s.answer (.byte (s.readByte off)))
    else .refused .hostAccess
  | .write8 off b =>
    if isBufferAddr off then whenIdle s (.next (s.writeByte off b)) else .refused .hostAccess
  | .read16 _ => .refused .hostAccess
  | .write16 _ _ => .refused .hostAccess

end Sys2Proof.Machine
end

