-- ==== Sys2Proof/Machine/Sequencer.lean ====
section
/-! DEFINITION. The sequencer's step (`30_encoding.md` R65). -/

namespace Sys2Proof.Machine

/-- The word the sequencer fetches: `UROM[UPC]`, none beyond the last word (R65). -/
def State.fetch (s : State) : Option Word := s.prog[s.upc.toNat]?

/-- What a fetched word does: the instruction it decodes to, or a refusal of a reserved word (R59, R65). -/
def runWord (u : Word) (s : State) : Result :=
  match decodeUop u with
  | .ok i => exec i s
  | .invalid why => .refused (.reservedWord why)

/-- One step of the sequencer; it has none while `BUSY = 0`, and the state stays (R9, R65). -/
def sequencerStep (s : State) : Result :=
  if s.busy then
    match s.fetch with
    | some u => runWord u s
    | none => .refused .fetchBeyondProgram
  else .next s

end Sys2Proof.Machine
end

