-- ==== Sys2Proof/Machine/Step.lean ====
section
/-! DEFINITION. One step of the machine: the next event of the input list, or, when no event is pending, the
sequencer's step (`20_memory.md` R36, R41; log 2). -/

namespace Sys2Proof.Machine

/-- The state once its first pending event is taken. -/
def State.withInputs (s : State) (rest : List Event) : State := { s with inputs := rest }

/-- What one event does. -/
def event (e : Event) (s : State) : Result :=
  match e with
  | .host a => hostAccess a s
  | .sequencer => sequencerStep s
  | .reset => .next s.resetEvent

/-- One step of the machine. With no event pending the sequencer runs on by itself, and an idle core stays as it is. -/
def step (s : State) : Host.Outcome State Fault Refusal :=
  match s.inputs with
  | [] => sequencerStep s
  | e :: rest => event e (s.withInputs rest)

/-- The state in which the next step fetches and runs the given table word (log 1): a micro-operation word stands in
the micro-program at `UPC`, with `BUSY` set and no event pending; a host command is the one pending host access, a
write of `CTRL`. -/
def State.withFetchWord (s : State) (nbits w : Nat) : State :=
  if inUopSpace (tableWord nbits w) then
    { s with
      prog := s.prog.take s.upc.toNat ++ List.replicate (s.upc.toNat - s.prog.length) 0#32
        ++ tableWord nbits w :: s.prog.drop (s.upc.toNat + 1)
      busy := true
      inputs := [] }
  else { s with inputs := [.host (.write32 0x00 (tableWord nbits w))] }

end Sys2Proof.Machine
end

