-- ==== Sys2Proof/Machine/Instances.lean ====
section
/-! DEFINITION. Several instances of the core (`60_exceptions.md` R133): the product of as many machines, which share
nothing. -/

namespace Sys2Proof.Machine

/-- Several instances, each with its own state and host map. DESIGN CHOICE (log 17): the parameters of R4, the reset
contents and `TEST_HOOK` among them, are those of one `Config` for all instances, so that two instances at the same
draw number hold equal reset contents; the spec leaves open whether they do. -/
abbrev Instances (n : Nat) := Vector State n

/-- One step of instance `k`; the other instances are not touched (R133). -/
def instancesStep {n : Nat} (k : Fin n) (ss : Instances n) : Host.Outcome (Instances n) Fault Refusal :=
  match step ss[k] with
  | .next t => .next (ss.set k t)
  | .fault f => .fault f
  | .refused r => .refused r

end Sys2Proof.Machine
end

