-- ==== Sys2Proof/Machine/CommandLevel.lean ====
section
/-! DEFINITION. The command level (`00_scope.md` R8): `HChaCha20` as a function of values (`40_derivekey_validate.md`
R70) and the transition of a whole `DERIVEKEY` command (R73, R74). -/

namespace Sys2Proof.Machine

/-- The working state as a value. -/
abbrev Words := Vector Word 16

/-- Word `j` of a byte sequence read as little-endian 4-byte slices `4j .. 4j+3` (R80). -/
def sliceWord {n : Nat} (b : Vector Byte n) (j : Nat) (h : 4 * j + 3 < n) : Word :=
  le32 b[4 * j] b[4 * j + 1] b[4 * j + 2] b[4 * j + 3]

/-- `Init(key, nonce)` (R80). -/
def initWordsOf (key : Vector Byte 32) (nonce : Vector Byte 16) : Words :=
  Vector.ofFn fun i : Idx =>
    if h : i.val < 4 then constWord ⟨i.val, h⟩
    else if h' : i.val < 12 then sliceWord key (i.val - 4) (by omega)
    else sliceWord nonce (i.val - 12) (by omega)

/-- The index tuple of one quarter-round. -/
abbrev Tuple := Idx × Idx × Idx × Idx

/-- `COL` (R7). -/
def colTuples : List Tuple := [(0, 4, 8, 12), (1, 5, 9, 13), (2, 6, 10, 14), (3, 7, 11, 15)]

/-- `DIAG` (R7). -/
def diagTuples : List Tuple := [(0, 5, 10, 15), (1, 6, 11, 12), (2, 7, 8, 13), (3, 4, 9, 14)]

/-- The quarter-round over a tuple (R91). -/
def quarterRoundOver (x : Words) : Tuple → Words
  | (a, b, c, d) =>
    let q := qrf ⟨x[a], x[b], x[c], x[d]⟩
    (((x.set a q.a).set b q.b).set c q.c).set d q.d

/-- The quarter-rounds over a list of tuples, in its order. -/
def applyTuples (x : Words) (ts : List Tuple) : Words := ts.foldl quarterRoundOver x

/-- `ColumnPass` (R91). -/
def columnPass (x : Words) : Words := applyTuples x colTuples

/-- `DiagonalPass` (R92). -/
def diagonalPass (x : Words) : Words := applyTuples x diagTuples

/-- `DoubleRound`: the column pass, then the diagonal pass (R93). -/
def doubleRound (x : Words) : Words := diagonalPass (columnPass x)

/-- `DoubleRound` applied `n` times. -/
def doubleRounds : Nat → Words → Words
  | 0, x => x
  | n + 1, x => doubleRounds n (doubleRound x)

/-- The mixer: exactly ten double-rounds (R94), and nothing else (R96). -/
def mix (x : Words) : Words := doubleRounds 10 x

/-- `OUTSEL` (R7): the words that are extracted, in their order. -/
def outSel (m : Fin 8) : Idx :=
  match m with
  | 0 => 0
  | 1 => 1
  | 2 => 2
  | 3 => 3
  | 4 => 12
  | 5 => 13
  | 6 => 14
  | 7 => 15

/-- `Extract(x)`: byte `4m + n` is byte `n` of word `OUTSEL[m]` (R100, R101). -/
def extract (x : Words) : Vector Byte 32 :=
  Vector.ofFn fun k : Fin 32 => byteOfWord x[outSel ⟨k.val / 4, by omega⟩] (k.val % 4)

/-- `HChaCha20(key, nonce)` (R70). -/
def hchacha20 (key : Vector Byte 32) (nonce : Vector Byte 16) : Vector Byte 32 :=
  extract (mix (initWordsOf key nonce))

/-- The contents of `KEY` (R11). -/
def State.key (s : State) : Vector Byte 32 := Vector.ofFn fun k : Fin 32 => s.readByte (keyBase + k.val)

/-- The contents of `NONCE` (R12). -/
def State.nonce (s : State) : Vector Byte 16 := Vector.ofFn fun k : Fin 16 => s.readByte (nonceBase + k.val)

/-- The contents of `OUT` (R13). -/
def State.out (s : State) : Vector Byte 32 := Vector.ofFn fun k : Fin 32 => s.readByte (outBase + k.val)

/-- All 32 bytes of `OUT` written, in ascending order (R74, R104). -/
def State.writeOut (s : State) (out : Vector Byte 32) : State :=
  (List.finRange 32).foldl (fun t k => t.writeByte (outBase + k.val) out[k]) s

/-- The error transition of a command (R73) and its success transition (R74), from the state before the accepted
`START` to the state in which the command has ended. -/
def commandLevel (s : State) : State :=
  match s.lengthError with
  | some (p, actual, expected) => s.start.raiseInvalidLength p actual expected
  | none =>
    { (s.start.writeOut (hchacha20 s.key s.nonce)).finish with
      x := mix (initWordsOf s.key s.nonce)
      upc := 105#7
      qrCount := 80#7 }

/-- The number of sequencer steps of a command: 1 when the length check fails, 106 when it passes (R65, R76, R152). -/
def commandSteps (s : State) : Nat :=
  match s.lengthError with
  | some _ => 1
  | none => 106

end Sys2Proof.Machine
end

