-- ==== Sys2Proof/Safety.lean ====
section
/-! DEFINITION. The terms claims use: running steps, and the invariant of the hardware. -/

namespace Sys2Proof.Machine

/-- `n` steps of the machine, stopping at a refusal. -/
def runSteps : Nat → State → Result
  | 0, s => .next s
  | n + 1, s =>
    match step s with
    | .next t => runSteps n t
    | .fault f => .fault f
    | .refused r => .refused r

/-! ### Where an instruction writes -/

/-- The words of `X` an instruction writes (R81, R82, R90). -/
def writesX : Instr → List Idx
  | .ldc i _ => [i]
  | .unpk i _ _ => [i]
  | .qr a b c d => [a, b, c, d]
  | .deriveKey | .chk | .pack _ _ | .endOp => []

/-- The host-map offset of the four bytes an instruction stores to (R102), none for a form that stores nothing. -/
def storesAt : Instr → Option Nat
  | .pack _ wo => some (outAddr wo)
  | .deriveKey | .chk | .ldc _ _ | .unpk _ _ _ | .qr _ _ _ _ | .endOp => none

/-! ### Host accesses -/

/-- The shapes of a host access R37 allows: aligned 32-bit accesses to the registers and the `X` window, 8-bit accesses
to the buffers. -/
def HostAccess.allowed : HostAccess → Prop
  | .read32 off | .write32 off _ => off % 4 = 0 ∧ (off ≤ 0x33 ∨ 0x40 ≤ off ∧ off ≤ 0x7F)
  | .read8 off | .write8 off _ => 0x80 ≤ off ∧ off ≤ 0xAF ∨ 0xC0 ≤ off ∧ off ≤ 0xDF
  | .read16 _ | .write16 _ _ => False

/-- Whether the access writes. -/
def HostAccess.isWrite : HostAccess → Bool
  | .write8 _ _ | .write16 _ _ | .write32 _ _ => true
  | .read8 _ | .read16 _ | .read32 _ => false

/-! ### The invariant -/

/-- The number of `QR` words of `UROM` before index `n`: words 17 to 96 are the `QR` words (R60). -/
def qrsBefore (n : Nat) : Nat := min (n - 17) 80

/-- The parameter, declared and required length of an error record are those R17 allows. -/
def errorRecordLegal (p : ErrParam) (actual expected : Word) : Prop :=
  match p with
  | .none => actual = 0#32 ∧ expected = 0#32
  | .output | .inputKey => actual ≠ 32#32 ∧ expected = 32#32
  | .nonce => actual ≠ 16#32 ∧ expected = 16#32

/-- What holds in every state the hardware can reach, and what every step keeps. -/
structure State.Inv (s : State) : Prop where
  /-- The memory has its canonical form. -/
  memWf : Memory.wf s.mem = true
  /-- The micro-program is `UROM` (R21, R60). -/
  prog : s.prog = urom
  /-- `UPC` never exceeds 105 (R19). -/
  upc_le : s.upc.toNat ≤ 105
  /-- At most one of `BUSY`, `DONE`, `ERROR` is 1 (R16). -/
  oneStatus : ¬(s.busy ∧ s.done) ∧ ¬(s.busy ∧ s.error) ∧ ¬(s.done ∧ s.error)
  /-- `ERR_PARAM != 0` exactly when `STATUS.ERROR = 1` (R17). -/
  errorIff : s.errParam ≠ .none ↔ s.error = true
  /-- The error record is one R17 allows. -/
  errorLegal : errorRecordLegal s.errParam s.errActual s.errExpected
  /-- `QR_COUNT` is the number of `QR` words before `UPC` (R20, R98). -/
  count : s.qrCount.toNat = qrsBefore s.upc.toNat
  /-- An idle core stands at 105 after success and at 0 otherwise (R19, D25). -/
  idle : s.busy = false → s.upc = (if s.done then 105#7 else 0#7)
  /-- Past `CHK` the three lengths are right for as long as the command runs (R38, R72). -/
  lengths : s.busy = true → s.upc ≠ 0#7 → s.lengthError = none

end Sys2Proof.Machine
end

