-- ==== Sys2Proof/Certificates/Slice0/Obligations.lean ====
section
/-! DEFINITION. The statements about the model, from the spec's numbered rules. `R<n>` in a docstring is the rule of
`spec/` the statement formalises; `log <n>` is `notes/assumptions/<n>.md`. -/

open Sys2Proof Sys2Proof.Machine

/-! ### Encoding -/

/-- Words written out from the formats of R53 to R57 and R51 decode to what they stand for; three reserved words of R59
are rejected by name. -/
def Obligations.SpecWordsDecode : Prop :=
  decodeUop 0x10000000#32 = .ok .chk ∧ decodeUop 0x20003003#32 = .ok (.ldc 3 3) ∧
  decodeUop 0x3000B007#32 = .ok (.unpk 11 .key 7) ∧ decodeUop 0x3000F103#32 = .ok (.unpk 15 .nonce 3) ∧
  decodeUop 0x4000FEDC#32 = .ok (.qr 15 14 13 12) ∧ decodeUop 0x5000C004#32 = .ok (.pack 12 4) ∧
  decodeUop 0x60000000#32 = .ok .endOp ∧ decodeCommand 0x00000001#32 = .ok .deriveKey ∧
  decodeUop 0x00000000#32 = .invalid .reservedOpcode ∧ decodeUop 0x30000104#32 = .invalid .nonceOffset ∧
  decodeUop 0x40001231#32 = .invalid .equalIndices

/-- Decoding the encoding of a well-formed instruction gives it back, in the instruction's own space and as a word of
the opcode table (R64; the choice of space for a table word is the model's, log 12). -/
def Obligations.DecodeOfEncode : Prop :=
  (∀ i : Instr, i.isUop = true → i.wellFormed = true → decodeUop (encode i) = .ok i) ∧
  decodeCommand (encode .deriveKey) = .ok .deriveKey ∧
  ∀ i : Instr, i.wellFormed = true → decodeTableWord 32 (encode i).toNat = some i

/-- Encoding what a micro-operation word decodes to gives the word back, so that no two words share a meaning (R64). -/
def Obligations.EncodeOfDecode : Prop :=
  ∀ (u : Word) (i : Instr), decodeUop u = .ok i → encode i = u

/-- The decoder rejects exactly the words R59 reserves, no word of `UROM` is one, and the sequencer refuses one. -/
def Obligations.ReservedWordsExactly : Prop :=
  (∀ u : Word, (∃ why, decodeUop u = .invalid why) ↔
    let n := u.toNat
    let op := n / 2 ^ 28
    let hi := n / 2 ^ 16 % 2 ^ 12
    let a := n / 2 ^ 12 % 16
    let b := n / 2 ^ 8 % 16
    let c := n / 2 ^ 4 % 16
    let d := n % 16
    op = 0 ∨ 7 ≤ op ∨
    (op = 1 ∨ op = 6) ∧ n % 2 ^ 28 ≠ 0 ∨
    op = 2 ∧ (hi ≠ 0 ∨ n / 2 ^ 2 % 2 ^ 10 ≠ 0) ∨
    op = 3 ∧ (hi ≠ 0 ∨ n / 2 ^ 9 % 2 ^ 3 ≠ 0 ∨ n / 2 ^ 3 % 2 ^ 5 ≠ 0 ∨ n / 2 ^ 8 % 2 = 1 ∧ 4 ≤ n % 8) ∨
    op = 4 ∧ (hi ≠ 0 ∨ a = b ∨ a = c ∨ a = d ∨ b = c ∨ b = d ∨ c = d) ∨
    op = 5 ∧ (hi ≠ 0 ∨ n / 2 ^ 3 % 2 ^ 9 ≠ 0)) ∧
  (∀ u ∈ urom, ∃ i, decodeUop u = .ok i) ∧
  ∀ (s : State) (u : Word) (why : Reject), s.busy = true → s.prog[s.upc.toNat]? = some u →
    decodeUop u = .invalid why → sequencerStep s = .refused (.reservedWord why)

/-- The macros of R63 and `UROM = CHK; INIT; MIX; EXTRACT; END`. -/
def Obligations.UromIsItsMacros : Prop :=
  let init : List Instr :=
    [.ldc 0 0, .ldc 1 1, .ldc 2 2, .ldc 3 3,
     .unpk 4 .key 0, .unpk 5 .key 1, .unpk 6 .key 2, .unpk 7 .key 3,
     .unpk 8 .key 4, .unpk 9 .key 5, .unpk 10 .key 6, .unpk 11 .key 7,
     .unpk 12 .nonce 0, .unpk 13 .nonce 1, .unpk 14 .nonce 2, .unpk 15 .nonce 3]
  let colpass : List Instr := [.qr 0 4 8 12, .qr 1 5 9 13, .qr 2 6 10 14, .qr 3 7 11 15]
  let diagpass : List Instr := [.qr 0 5 10 15, .qr 1 6 11 12, .qr 2 7 8 13, .qr 3 4 9 14]
  let mixOps : List Instr := (List.replicate 10 (colpass ++ diagpass)).flatten
  let extractOps : List Instr :=
    [.pack 0 0, .pack 1 1, .pack 2 2, .pack 3 3, .pack 12 4, .pack 13 5, .pack 14 6, .pack 15 7]
  urom.length = 106 ∧ urom = ([Instr.chk] ++ init ++ mixOps ++ extractOps ++ [Instr.endOp]).map encode

/-! ### A step -/

/-- A step is `exec` of the decoded instruction: the micro-operation word at `UPC` while the core is busy, with or
without an event that schedules the sequencer, and the command in a word the host writes to `CTRL` (R65, R71). The
event list is the model's own (log 2). -/
def Obligations.StepRunsTheDecodedInstruction : Prop :=
  (∀ (s : State) (u : Word) (i : Instr), s.busy = true → s.prog[s.upc.toNat]? = some u → decodeUop u = .ok i →
    (s.inputs = [] → step s = exec i s) ∧
    ∀ rest, s.inputs = .sequencer :: rest → step s = exec i (s.withInputs rest)) ∧
  ∀ (s : State) (w : Word) (i : Instr) (rest : List Event), s.inputs = .host (.write32 0x00 w) :: rest →
    decodeCommand w = .ok i → step s = exec i (s.withInputs rest)

/-- The sequencer has no step while `BUSY = 0` (R9, R65); that the model's step then leaves the state as it is, is the
model's choice (log 2). -/
def Obligations.IdleSequencerHasNoStep : Prop :=
  ∀ s : State, s.busy = false →
    (s.inputs = [] → step s = .next s) ∧
    ∀ rest, s.inputs = .sequencer :: rest → step s = .next (s.withInputs rest)

/-- A fetch beyond the last word is refused (R65), and so, by the model's choice (log 8), is an advance past the 7 bits
of `UPC`. -/
def Obligations.RunningOffTheProgramIsRefused : Prop :=
  (∀ s : State, s.inputs = [] → s.busy = true → s.prog[s.upc.toNat]? = none →
    step s = .refused .fetchBeyondProgram) ∧
  (∀ s : State, s.upc = 127#7 →
    (s.lengthError = none → exec .chk s = .refused .upcOverflow) ∧
    (∀ i k, exec (.ldc i k) s = .refused .upcOverflow) ∧
    (∀ i src wo, sliceInBuffer src wo = true → exec (.unpk i src wo) s = .refused .upcOverflow) ∧
    (∀ a b c d, pairwiseDistinct a b c d = true → s.qrCount ≠ 127#7 →
      exec (.qr a b c d) s = .refused .upcOverflow) ∧
    ∀ i wo, exec (.pack i wo) s = .refused .upcOverflow)

/-! ### The instructions -/

/-- `DERIVEKEY` (R71): an accepted `START` sets `BUSY` and clears `DONE`, `ERROR`, the error record, `QR_COUNT` and
`UPC`; while a command runs it is dropped. A write of `CTRL` with bit 0 = 1 issues it, whatever the other bits. -/
def Obligations.StartIsAcceptedWhileIdle : Prop :=
  ∀ s : State,
    (s.busy = true → exec .deriveKey s = .next s) ∧
    (s.busy = false → exec .deriveKey s = .next { s with
      busy := true, done := false, error := false, errParam := .none, errActual := 0#32, errExpected := 0#32,
      qrCount := 0#7, upc := 0#7 }) ∧
    ∀ (w : Word) (rest : List Event), w.getLsbD 0 = true → s.inputs = .host (.write32 0x00 w) :: rest →
      step s = exec .deriveKey (s.withInputs rest)

/-- `CHK` (R72, R122): the lengths are compared in the order output, inputKey, nonce, on all 32 bits; the first
mismatch is recorded, `BUSY` falls and `ERROR` rises, and nothing else changes; with all three right `UPC` advances. -/
def Obligations.ChkComparesTheLengths : Prop :=
  ∀ s : State,
    (s.outLen ≠ 32#32 → exec .chk s = .next { s with
      errParam := .output, errActual := s.outLen, errExpected := 32#32, busy := false, error := true }) ∧
    (s.outLen = 32#32 → s.keyLen ≠ 32#32 → exec .chk s = .next { s with
      errParam := .inputKey, errActual := s.keyLen, errExpected := 32#32, busy := false, error := true }) ∧
    (s.outLen = 32#32 → s.keyLen = 32#32 → s.nonceLen ≠ 16#32 → exec .chk s = .next { s with
      errParam := .nonce, errActual := s.nonceLen, errExpected := 16#32, busy := false, error := true }) ∧
    (s.outLen = 32#32 → s.keyLen = 32#32 → s.nonceLen = 16#32 → s.upc ≠ 127#7 →
      exec .chk s = .next { s with upc := s.upc + 1#7 })

/-- Raising `InvalidLength` (R123): the record and the two status bits are written and nothing else is; the
host reads the error in `STATUS` and the record in the `ERR_*` registers. The sequencer then has no step; that its step
answers the same state is the model's choice (log 2). -/
def Obligations.InvalidLengthStopsTheCommand : Prop :=
  ∀ (s : State) (p : ErrParam) (actual expected : Word), s.lengthError = some (p, actual, expected) →
    ∃ t, exec .chk s = .next t ∧
      t = { s with errParam := p, errActual := actual, errExpected := expected, busy := false, error := true } ∧
      sequencerStep t = .next t ∧
      (t.readReg .status).getLsbD 0 = false ∧ (t.readReg .status).getLsbD 2 = true ∧
      t.readReg .errParam ≠ 0#32 ∧ t.readReg .errActual = actual ∧ t.readReg .errExpected = expected

/-- `LDC i,k` (R81), with the constants of R7 written out. -/
def Obligations.LdcLoadsAConstant : Prop :=
  ∀ (i : Idx) (k : Fin 4) (s : State), s.upc ≠ 127#7 →
    exec (.ldc i k) s = .next { s with
      x := s.x.set i (#v[0x61707865#32, 0x3320646e#32, 0x79622d32#32, 0x6b206574#32][k])
      upc := s.upc + 1#7 }

/-- `UNPK i,s,wo` (R82): the four bytes at `4*wo` of `KEY` or `NONCE`, the first the least significant; the form
`NONCE` with `wo >= 4` is refused (R59). -/
def Obligations.UnpkReadsLittleEndian : Prop :=
  ∀ (i : Idx) (src : Source) (wo : Fin 8) (s : State),
    let base := (match src with | .key => 0x80 | .nonce => 0xA0) + 4 * wo.val
    (sliceInBuffer src wo = true → s.upc ≠ 127#7 →
      exec (.unpk i src wo) s = .next { s with
        x := s.x.set i (BitVec.ofNat 32 ((s.readByte base).toNat + 2 ^ 8 * (s.readByte (base + 1)).toNat
          + 2 ^ 16 * (s.readByte (base + 2)).toNat + 2 ^ 24 * (s.readByte (base + 3)).toNat))
        upc := s.upc + 1#7 }) ∧
    (src = .nonce → 4 ≤ wo.val → exec (.unpk i src wo) s = .refused (.reservedWord .nonceOffset))

/-- `QR a,b,c,d` (R90): all four words are read before any is written; the quarter-round's words are written back,
`QR_COUNT` and `UPC` advance, and nothing else changes; a 128th `QR` and repeated indices (R59) are refused. -/
def Obligations.QrAppliesTheQuarterRound : Prop :=
  ∀ (a b c d : Idx) (s : State),
    (a ≠ b → a ≠ c → a ≠ d → b ≠ c → b ≠ d → c ≠ d → s.qrCount ≠ 127#7 → s.upc ≠ 127#7 →
      ∃ t, exec (.qr a b c d) s = .next t ∧
        t = { s with x := t.x, qrCount := s.qrCount + 1#7, upc := s.upc + 1#7 } ∧
        (⟨t.readX a, t.readX b, t.readX c, t.readX d⟩ : Quad) = qrf ⟨s.x[a], s.x[b], s.x[c], s.x[d]⟩ ∧
        ∀ j : Idx, j ≠ a → j ≠ b → j ≠ c → j ≠ d → t.readX j = s.readX j) ∧
    (a ≠ b → a ≠ c → a ≠ d → b ≠ c → b ≠ d → c ≠ d → s.qrCount = 127#7 →
      exec (.qr a b c d) s = .refused .qrCountOverflow) ∧
    (a = b ∨ a = c ∨ a = d ∨ b = c ∨ b = d ∨ c = d →
      exec (.qr a b c d) s = .refused (.reservedWord .equalIndices))

/-- `PACK i,wo` (R102): the four bytes of `X[i]`, least significant first, at `OUT[4*wo]`; every other byte, `X` and
the registers stay. -/
def Obligations.PackWritesLittleEndian : Prop :=
  ∀ (i : Idx) (wo : Fin 8) (s : State), s.upc ≠ 127#7 →
    ∃ t, exec (.pack i wo) s = .next t ∧ t = { s with mem := t.mem, upc := s.upc + 1#7 } ∧
      (∀ n < 4, (t.readByte (0xC0 + 4 * wo.val + n)).toNat = s.x[i].toNat / 2 ^ (8 * n) % 2 ^ 8) ∧
      ∀ a, a < 0xC0 + 4 * wo.val ∨ 0xC0 + 4 * wo.val + 4 ≤ a → t.readByte a = s.readByte a

/-- `END` (R103): `BUSY` falls and `DONE` rises, nothing else changes, and the sequencer has no step after
it; that its step answers the same state is the model's choice (log 2). -/
def Obligations.EndFinishesTheCommand : Prop :=
  ∀ s : State, ∃ t, exec .endOp s = .next t ∧ t = { s with busy := false, done := true } ∧
    sequencerStep t = .next t

/-! ### Frames -/

/-- `LDC`, `UNPK` and `QR` change no word of `X` but their destinations, no byte of memory, no length, status or error
register, and `QR_COUNT` only by `QR` (R81, R82, R90). -/
def Obligations.RegisterFormsFrame : Prop :=
  ∀ (i : Instr) (s t : State), writesX i ≠ [] → exec i s = .next t →
    (∀ j, j ∉ writesX i → t.readX j = s.readX j) ∧ (∀ a, t.readByte a = s.readByte a) ∧
    t.outLen = s.outLen ∧ t.keyLen = s.keyLen ∧ t.nonceLen = s.nonceLen ∧
    t.busy = s.busy ∧ t.done = s.done ∧ t.error = s.error ∧
    t.errParam = s.errParam ∧ t.errActual = s.errActual ∧ t.errExpected = s.errExpected ∧
    ((∀ a b c d, i ≠ .qr a b c d) → t.qrCount = s.qrCount) ∧
    t.prog = s.prog ∧ t.inputs = s.inputs ∧ t.readData = s.readData ∧ t.resetDraws = s.resetDraws

/-- `PACK` changes no byte of memory but the four at the offset it stores to, and no register but `UPC` (R102). -/
def Obligations.StoringFormFrame : Prop :=
  ∀ (i : Instr) (base : Nat) (s t : State), storesAt i = some base → exec i s = .next t →
    (∀ a, a < base ∨ base + 4 ≤ a → t.readByte a = s.readByte a) ∧ (∀ j, t.readX j = s.readX j) ∧
    t.outLen = s.outLen ∧ t.keyLen = s.keyLen ∧ t.nonceLen = s.nonceLen ∧
    t.busy = s.busy ∧ t.done = s.done ∧ t.error = s.error ∧
    t.errParam = s.errParam ∧ t.errActual = s.errActual ∧ t.errExpected = s.errExpected ∧
    t.qrCount = s.qrCount ∧
    t.prog = s.prog ∧ t.inputs = s.inputs ∧ t.readData = s.readData ∧ t.resetDraws = s.resetDraws

/-- `DERIVEKEY`, `CHK` and `END` change no word of `X`, no byte of memory and no length register; `CHK` leaves `DONE`
and `QR_COUNT`, and with right lengths the status and the error record too; `END` leaves `ERROR`, the error record,
`QR_COUNT` and `UPC` (R71, R72, R103). -/
def Obligations.ControlFormsFrame : Prop :=
  ∀ (i : Instr) (s t : State), i = .deriveKey ∨ i = .chk ∨ i = .endOp → exec i s = .next t →
    (∀ j, t.readX j = s.readX j) ∧ (∀ a, t.readByte a = s.readByte a) ∧
    t.outLen = s.outLen ∧ t.keyLen = s.keyLen ∧ t.nonceLen = s.nonceLen ∧
    t.prog = s.prog ∧ t.inputs = s.inputs ∧ t.readData = s.readData ∧ t.resetDraws = s.resetDraws ∧
    (i = .chk → t.done = s.done ∧ t.qrCount = s.qrCount) ∧
    (i = .chk → s.lengthError = none → t.busy = s.busy ∧ t.error = s.error ∧
      t.errParam = s.errParam ∧ t.errActual = s.errActual ∧ t.errExpected = s.errExpected) ∧
    (i = .endOp → t.error = s.error ∧ t.errParam = s.errParam ∧ t.errActual = s.errActual ∧
      t.errExpected = s.errExpected ∧ t.qrCount = s.qrCount ∧ t.upc = s.upc)

/-! ### The datapath -/

/-- `add32` is addition modulo `2^32` (R110), and `xor32` adds bits modulo 2 (R111). -/
def Obligations.AddWrapsAndXorAddsBits : Prop :=
  (∀ x y : Word, (add32 x y).toNat = (x.toNat + y.toNat) % 2 ^ 32) ∧
  ∀ (x y : Word) (i : Nat), i < 32 →
    ((xor32 x y).getLsbD i).toNat = ((x.getLsbD i).toNat + (y.getLsbD i).toNat) % 2

/-- `rotl32` (R112): its value in shifts of naturals, and bit `i` becomes bit `(i + n) mod 32`. -/
def Obligations.RotateMovesEveryBit : Prop :=
  ∀ (x : Word) (n : Nat) (h : 1 ≤ n ∧ n ≤ 31),
    (rotl32 x n h).toNat = (x.toNat * 2 ^ n) % 2 ^ 32 ||| x.toNat / 2 ^ (32 - n) ∧
    ∀ i < 32, (rotl32 x n h).getLsbD ((i + n) % 32) = x.getLsbD i

/-- Combining the halves of a rotate by or, exclusive-or and addition gives one word (R114, which the spec derives). -/
def Obligations.RotateByOrXorOrAdd : Prop :=
  ∀ (x : Word) (n : Nat) (h : 1 ≤ n ∧ n ≤ 31),
    rotl32 x n h = (x <<< n) ^^^ (x >>> (32 - n)) ∧ rotl32 x n h = (x <<< n) + (x >>> (32 - n))

/-- `QRF` (R113): the four lines of the quarter-round, with the library's rotate, and the worked trace's result. -/
def Obligations.QuarterRoundIsItsTwelveStatements : Prop :=
  (∀ a b c d : Word,
    let a1 := a + b
    let d1 := (d ^^^ a1).rotateLeft 16
    let c1 := c + d1
    let b1 := (b ^^^ c1).rotateLeft 12
    let a2 := a1 + b1
    let d2 := (d1 ^^^ a2).rotateLeft 8
    let c2 := c1 + d2
    let b2 := (b1 ^^^ c2).rotateLeft 7
    qrf ⟨a, b, c, d⟩ = ⟨a2, b2, c2, d2⟩) ∧
  qrf ⟨0x11111111#32, 0x01020304#32, 0x9b8d6f43#32, 0x01234567#32⟩ =
    ⟨0xea2a92f4#32, 0xcb1cf8ce#32, 0x4581472e#32, 0x5881c4bb#32⟩

/-- `le32` (R32): its value, and that no two byte quadruples give the same word. -/
def Obligations.UnpackingIsInjective : Prop :=
  (∀ b0 b1 b2 b3 : Byte, (le32 b0 b1 b2 b3).toNat =
    b0.toNat + 2 ^ 8 * b1.toNat + 2 ^ 16 * b2.toNat + 2 ^ 24 * b3.toNat) ∧
  ∀ b0 b1 b2 b3 c0 c1 c2 c3 : Byte, le32 b0 b1 b2 b3 = le32 c0 c1 c2 c3 →
    b0 = c0 ∧ b1 = c1 ∧ b2 = c2 ∧ b3 = c3

/-- `le32bytes` (R33): its bytes, and that it and `le32` undo each other (which the spec derives from R32). -/
def Obligations.PackingUndoesUnpacking : Prop :=
  (∀ (w : Word) (n : Nat), n < 4 → (byteOfWord w n).toNat = w.toNat / 2 ^ (8 * n) % 2 ^ 8) ∧
  (∀ w : Word, le32 (byteOfWord w 0) (byteOfWord w 1) (byteOfWord w 2) (byteOfWord w 3) = w) ∧
  ∀ b0 b1 b2 b3 : Byte,
    byteOfWord (le32 b0 b1 b2 b3) 0 = b0 ∧ byteOfWord (le32 b0 b1 b2 b3) 1 = b1 ∧
    byteOfWord (le32 b0 b1 b2 b3) 2 = b2 ∧ byteOfWord (le32 b0 b1 b2 b3) 3 = b3

/-! ### Runs of `UROM` -/

/-- The result of a pass is the same in whatever order its four quarter-rounds are applied (R97, which the spec
derives). -/
def Obligations.PassOrderDoesNotMatter : Prop :=
  ∀ (x : Words) (ts : List Tuple),
    (ts.Perm colTuples → applyTuples x ts = columnPass x) ∧
    (ts.Perm diagTuples → applyTuples x ts = diagonalPass x)

/-- Words 1 to 16 of `UROM` leave `X = Init(KEY, NONCE)`, whatever `X` held (R83, which the spec derives). -/
def Obligations.InitWordsInitialise : Prop :=
  ∀ s : State, s.busy = true → s.inputs = [] → s.prog = urom → s.upc = 1#7 →
    runSteps 16 s = .next { s with x := initWordsOf s.key s.nonce, upc := 17#7 }

/-- The eight `QR` words of double-round `r + 1` apply `DoubleRound` to `X`; at their end `QR_COUNT = 8(r + 1)` and
`UPC = 17 + 8(r + 1)` (R98, which the spec derives). -/
def Obligations.EightQrWordsAreADoubleRound : Prop :=
  ∀ (s : State) (r : Nat), r < 10 → s.busy = true → s.inputs = [] → s.prog = urom →
    s.upc = BitVec.ofNat 7 (17 + 8 * r) → s.qrCount = BitVec.ofNat 7 (8 * r) →
    runSteps 8 s = .next { s with
      x := doubleRound s.x
      qrCount := BitVec.ofNat 7 (8 * (r + 1))
      upc := BitVec.ofNat 7 (17 + 8 * (r + 1)) }

/-- After `m` of the eight `PACK` words the first `m` groups of four bytes of `OUT` are new and the others old, and
nothing outside `OUT` has changed (R104, R144, which the spec derives). -/
def Obligations.PackWordsFillOutInOrder : Prop :=
  ∀ (s : State) (m : Nat), m ≤ 8 → s.busy = true → s.inputs = [] → s.prog = urom → s.upc = 97#7 →
    ∃ t, runSteps m s = .next t ∧ t = { s with mem := t.mem, upc := BitVec.ofNat 7 (97 + m) } ∧
      (∀ k : Fin 32, t.readByte (0xC0 + k.val) =
        if k.val < 4 * m then (extract s.x)[k] else s.readByte (0xC0 + k.val)) ∧
      ∀ a, a < 0xC0 ∨ 0xE0 ≤ a → t.readByte a = s.readByte a

/-- The output is a function of words 0 to 3 and 12 to 15 of the mixed state (R100). -/
def Obligations.OutputIgnoresTheMiddleWords : Prop :=
  ∀ x y : Words, (∀ i : Idx, i.val < 4 ∨ 12 ≤ i.val → x[i] = y[i]) → extract x = extract y

/-! ### Whole commands -/

/-- The two levels agree (R76, which the spec derives): from every idle state of the hardware, whatever the registers
and buffers hold, an accepted `START` followed by sequencer steps reaches exactly the state of the command-level
transition (R73, R74) after 1 step where a length is wrong and 106 where all are right, and not before. -/
def Obligations.MicroLevelRefinesCommandLevel : Prop :=
  ∀ (s : State) (w : Word), s.busy = false → s.prog = urom → w.getLsbD 0 = true →
    s.inputs = [.host (.write32 0x00 w)] →
    runSteps (1 + commandSteps s) s = .next (commandLevel (s.withInputs [])) ∧
    ∀ k < commandSteps s, ∃ t, runSteps (1 + k) s = .next t ∧ t.busy = true

/-- The success transition (R74): `OUT = HChaCha20(KEY, NONCE)`, `DONE`, an empty error record, `QR_COUNT = 80`,
`UPC = 105`, `X` the fully mixed state, and `KEY`, `NONCE` and the lengths unchanged. -/
def Obligations.CommandDerivesTheKey : Prop :=
  ∀ (s : State) (w : Word), s.busy = false → s.prog = urom → w.getLsbD 0 = true →
    s.inputs = [.host (.write32 0x00 w)] → s.outLen = 32#32 → s.keyLen = 32#32 → s.nonceLen = 16#32 →
    ∃ t, runSteps 107 s = .next t ∧ t.out = hchacha20 s.key s.nonce ∧
      t.busy = false ∧ t.done = true ∧ t.error = false ∧
      t.errParam = .none ∧ t.errActual = 0#32 ∧ t.errExpected = 0#32 ∧ t.qrCount = 80#7 ∧ t.upc = 105#7 ∧
      t.x = mix (initWordsOf s.key s.nonce) ∧ t.key = s.key ∧ t.nonce = s.nonce ∧
      t.outLen = s.outLen ∧ t.keyLen = s.keyLen ∧ t.nonceLen = s.nonceLen

/-- The error transition (R73): `ERROR`, the record of the first failing parameter, `QR_COUNT = 0`, `UPC = 0`, and `X`,
`KEY`, `NONCE`, `OUT` and the lengths as before the `START`. -/
def Obligations.FailedCommandTouchesNothing : Prop :=
  ∀ (s : State) (w : Word) (p : ErrParam) (actual expected : Word), s.busy = false → s.prog = urom →
    w.getLsbD 0 = true → s.inputs = [.host (.write32 0x00 w)] →
    (s.outLen ≠ 32#32 ∧ (p, actual, expected) = (.output, s.outLen, 32#32) ∨
      s.outLen = 32#32 ∧ s.keyLen ≠ 32#32 ∧ (p, actual, expected) = (.inputKey, s.keyLen, 32#32) ∨
      s.outLen = 32#32 ∧ s.keyLen = 32#32 ∧ s.nonceLen ≠ 16#32 ∧
        (p, actual, expected) = (.nonce, s.nonceLen, 16#32)) →
    runSteps 2 s = .next { s with
      inputs := [], busy := false, done := false, error := true,
      errParam := p, errActual := actual, errExpected := expected, qrCount := 0#7, upc := 0#7 }

/-- The result of a command is a function of the three lengths, `KEY` and `NONCE` at the accepted `START` and of
nothing else: two idle cores that agree on these end with the same status, error record, counters and, after success,
the same `OUT` and `X`, whatever `X`, `OUT`, the old status and the reset draws were; the command changes no input
(R75). -/
def Obligations.CommandDependsOnItsInputsOnly : Prop :=
  ∀ (s s' : State) (w w' : Word), s.busy = false → s'.busy = false → s.prog = urom → s'.prog = urom →
    w.getLsbD 0 = true → w'.getLsbD 0 = true →
    s.inputs = [.host (.write32 0x00 w)] → s'.inputs = [.host (.write32 0x00 w')] →
    s.outLen = s'.outLen → s.keyLen = s'.keyLen → s.nonceLen = s'.nonceLen → s.key = s'.key → s.nonce = s'.nonce →
    ∃ t t', runSteps (1 + commandSteps s) s = .next t ∧ runSteps (1 + commandSteps s) s' = .next t' ∧
      t.busy = false ∧ t'.busy = false ∧ t.done = t'.done ∧ t.error = t'.error ∧
      t.errParam = t'.errParam ∧ t.errActual = t'.errActual ∧ t.errExpected = t'.errExpected ∧
      t.upc = t'.upc ∧ t.qrCount = t'.qrCount ∧ (t.done = true → t.out = t'.out ∧ t.x = t'.x) ∧
      t.key = s.key ∧ t.nonce = s.nonce ∧ t.outLen = s.outLen ∧ t.keyLen = s.keyLen ∧ t.nonceLen = s.nonceLen

/-- Constant time on the step sequence (R150): after `k` sequencer steps of a command `UPC` is `min k 105` where the
lengths are right and 0 where one is wrong, whatever the key, the nonce and the buffers hold. Steps past the end of the
command, where the spec gives the sequencer none, leave the idle state as it is by the model's choice (log 2). -/
def Obligations.UpcPathIsDataIndependent : Prop :=
  ∀ (s : State) (w : Word) (k : Nat), s.busy = false → s.prog = urom → w.getLsbD 0 = true →
    s.inputs = [.host (.write32 0x00 w)] →
    ∃ t, runSteps (1 + k) s = .next t ∧
      t.upc = if s.outLen = 32#32 ∧ s.keyLen = 32#32 ∧ s.nonceLen = 16#32 then BitVec.ofNat 7 (min k 105) else 0#7

/-- Every running command ends after at most 106 steps of the sequencer, without any host action (R152). -/
def Obligations.EveryCommandEnds : Prop :=
  ∀ s : State, s.Inv → s.busy = true → s.inputs = [] →
    ∃ n ≤ 106, ∃ t, runSteps n s = .next t ∧ t.busy = false ∧ (t.done = true ∧ t.upc = 105#7 ∨ t.error = true ∧ t.upc = 0#7)

/-! ### The host's side -/

/-- `CTRL` (R15): a write with bit 0 = 1 while idle issues the command, any other write changes nothing, and a read
returns 0. -/
def Obligations.CtrlStartsOrDoesNothing : Prop :=
  (∀ (s : State) (w : Word) (rest : List Event), s.inputs = .host (.write32 0x00 w) :: rest →
    (w.getLsbD 0 = true → s.busy = false → step s = exec .deriveKey (s.withInputs rest)) ∧
    (w.getLsbD 0 = false ∨ s.busy = true → step s = .next (s.withInputs rest))) ∧
  ∀ (s : State) (rest : List Event), s.inputs = .host (.read32 0x00) :: rest →
    step s = .next { s with inputs := rest, readData := some (.word 0#32) }

/-- The allowed shapes of a host access (R37): they have a meaning in every state, and every other access is refused;
that it is refused while a command runs too is the model's reading (log 9). -/
def Obligations.HostAccessShapes : Prop :=
  ∀ (s : State) (a : HostAccess),
    (a.allowed → ∃ t, hostAccess a s = .next t) ∧ (¬a.allowed → hostAccess a s = .refused .hostAccess)

/-- While a command runs every allowed host write changes nothing, every allowed read changes nothing but the answer (and
takes its event off the model's list, log 2), and no step but a reset changes a byte of `KEY` or `NONCE` or a length (R38; that a shape R37 does not allow is refused
while busy too is the model's reading, log 9). -/
def Obligations.RunningCommandIgnoresTheHost : Prop :=
  ∀ (s : State), s.busy = true →
    (∀ (a : HostAccess) (rest : List Event), a.allowed → s.inputs = .host a :: rest →
      (a.isWrite = true → step s = .next (s.withInputs rest)) ∧
      (a.isWrite = false → ∃ v, step s = .next { s with inputs := rest, readData := some v })) ∧
    ∀ t, step s = .next t → (∀ rest, s.inputs ≠ .reset :: rest) →
      t.key = s.key ∧ t.nonce = s.nonce ∧ t.outLen = s.outLen ∧ t.keyLen = s.keyLen ∧ t.nonceLen = s.nonceLen

/-- While idle a length register takes any value and reads back as written, and nothing else changes (R14). -/
def Obligations.LengthRegistersReadBack : Prop :=
  ∀ (s : State) (w : Word) (rest : List Event), s.busy = false →
    (s.inputs = .host (.write32 0x08 w) :: .host (.read32 0x08) :: rest →
      runSteps 2 s = .next { s with outLen := w, inputs := rest, readData := some (.word w) }) ∧
    (s.inputs = .host (.write32 0x0C w) :: .host (.read32 0x0C) :: rest →
      runSteps 2 s = .next { s with keyLen := w, inputs := rest, readData := some (.word w) }) ∧
    (s.inputs = .host (.write32 0x10 w) :: .host (.read32 0x10) :: rest →
      runSteps 2 s = .next { s with nonceLen := w, inputs := rest, readData := some (.word w) })

/-- While idle the host writes and reads back every byte of `KEY`, `NONCE` and `OUT`, and no other byte and no register
changes (R11, R12, R13). -/
def Obligations.BufferBytesReadBack : Prop :=
  ∀ (s : State) (off : Nat) (b : Byte) (rest : List Event), s.busy = false →
    0x80 ≤ off ∧ off ≤ 0xAF ∨ 0xC0 ≤ off ∧ off ≤ 0xDF →
    s.inputs = .host (.write8 off b) :: .host (.read8 off) :: rest →
    ∃ t, runSteps 2 s = .next t ∧ t = { s with mem := t.mem, inputs := rest, readData := some (.byte b) } ∧
      t.readByte off = b ∧ ∀ a, a ≠ off → t.readByte a = s.readByte a

/-- A host read of a byte of `KEY`, `NONCE` or `OUT` answers the byte the buffer holds, in every state: while idle, while
a command runs (R38, R144), and where nothing has written it (a free value: log 4); nothing but the answer changes.
Where the answer stands, and the list its event is taken off, are the model's own (log 7, log 2). -/
def Obligations.BufferReadsAnswerTheCurrentByte : Prop :=
  ∀ (s : State) (off : Nat), 0x80 ≤ off ∧ off ≤ 0xAF ∨ 0xC0 ≤ off ∧ off ≤ 0xDF →
    hostAccess (.read8 off) s = .next { s with readData := some (.byte (s.readByte off)) } ∧
    ∀ rest, s.inputs = .host (.read8 off) :: rest →
      step s = .next { s with inputs := rest, readData := some (.byte (s.readByte off)) }

/-- Side effects of host accesses (R39): but for a write of `CTRL` with bit 0 = 1 while idle, a host access changes
nothing of the core except what it writes, a length register or one buffer byte while idle; a read changes nothing but
its answer; a write of a read-only register is ignored, and a read of `CTRL` returns 0. -/
def Obligations.OnlyStartHasASideEffect : Prop :=
  (∀ (s t : State) (a : HostAccess), hostAccess a s = .next t →
    (∃ w, a = .write32 0x00 w ∧ w.getLsbD 0 = true ∧ s.busy = false) ∨
    (a.isWrite = false ∧ t = { s with readData := t.readData }) ∨
    (a.isWrite = true ∧ t = s) ∨
    (s.busy = false ∧
      ((∃ w, a = .write32 0x08 w ∧ t = { s with outLen := w }) ∨
       (∃ w, a = .write32 0x0C w ∧ t = { s with keyLen := w }) ∨
       (∃ w, a = .write32 0x10 w ∧ t = { s with nonceLen := w }) ∨
       ∃ off b, a = .write8 off b ∧ t = { s with mem := t.mem } ∧ t.readByte off = b ∧
         ∀ k, k ≠ off → t.readByte k = s.readByte k))) ∧
  (∀ (s : State) (off : Nat) (w : Word), off % 4 = 0 →
    off = 0x04 ∨ 0x14 ≤ off ∧ off ≤ 0x30 ∨ 0x40 ≤ off ∧ off ≤ 0x7C → hostAccess (.write32 off w) s = .next s) ∧
  ∀ s : State, hostAccess (.read32 0x00) s = .next { s with readData := some (.word 0#32) }

/-- The test hook (R25): `UPC`, `QR_COUNT` and `X` read as their values when `TEST_HOOK` is true and as 0 when it is
false, at any time; a write of them is ignored, and neither access changes anything of the core. -/
def Obligations.TestHookGatesTheWindow : Prop :=
  ∀ s : State,
    hostAccess (.read32 0x2C) s = .next { s with
      readData := some (.word (if Config.testHook = true then s.upc.setWidth 32 else 0#32)) } ∧
    hostAccess (.read32 0x30) s = .next { s with
      readData := some (.word (if Config.testHook = true then s.qrCount.setWidth 32 else 0#32)) } ∧
    (∀ i : Idx, hostAccess (.read32 (0x40 + 4 * i.val)) s = .next { s with
      readData := some (.word (if Config.testHook = true then s.x[i] else 0#32)) }) ∧
    (∀ w : Word, hostAccess (.write32 0x2C w) s = .next s ∧ hostAccess (.write32 0x30 w) s = .next s) ∧
    ∀ (i : Idx) (w : Word), hostAccess (.write32 (0x40 + 4 * i.val) w) s = .next s

/-- What the host reads in `STATUS` (R16), the error record (R17), the lengths (R14) and the size constants (R18). -/
def Obligations.ControlRegistersReadTheirFields : Prop :=
  ∀ s : State, ∃ st er : Word,
    st.toNat = s.busy.toNat + 2 * s.done.toNat + 4 * s.error.toNat ∧
    er = (match s.errParam with | .none => 0#32 | .output => 1#32 | .inputKey => 2#32 | .nonce => 3#32) ∧
    ∀ p ∈ [(0x04, st), (0x08, s.outLen), (0x0C, s.keyLen), (0x10, s.nonceLen), (0x14, er), (0x18, s.errActual),
        (0x1C, s.errExpected), (0x20, 32#32), (0x24, 32#32), (0x28, 16#32)],
      hostAccess (.read32 p.1) s = .next { s with readData := some (.word p.2) }

/-! ### The machine as a whole -/

/-- `KEY`, `NONCE` and the length registers change by a host write or a reset only: no step of the sequencer and no
read writes them (R11, R12, R14). -/
def Obligations.CoreNeverWritesItsInputs : Prop :=
  ∀ s t : State, step s = .next t → (∀ rest, s.inputs ≠ .reset :: rest) →
    (∀ a rest, a.isWrite = true → s.inputs ≠ .host a :: rest) →
    t.key = s.key ∧ t.nonce = s.nonce ∧ t.outLen = s.outLen ∧ t.keyLen = s.keyLen ∧ t.nonceLen = s.nonceLen

/-- A word of `X` changes by a reset or by a step of the sequencer whose micro-operation at `UPC` has it as a
destination, never by the host (R10). -/
def Obligations.WorkingStateChangesByMicroOperationsOnly : Prop :=
  ∀ (s t : State) (j : Idx), step s = .next t → t.readX j ≠ s.readX j →
    (∃ rest, s.inputs = .reset :: rest) ∨
    ((s.inputs = [] ∨ ∃ rest, s.inputs = .sequencer :: rest) ∧ s.busy = true ∧
      ∃ u i, s.prog[s.upc.toNat]? = some u ∧ decodeUop u = .ok i ∧ j ∈ writesX i)

/-- In the hardware a byte of `OUT` changes by a host write, by a reset, or by a step of the sequencer that runs `PACK`
in a command whose length check has passed (R13). -/
def Obligations.OutChangesOnlyAfterTheCheck : Prop :=
  ∀ (s t : State) (k : Fin 32), s.Inv → step s = .next t → t.readByte (0xC0 + k.val) ≠ s.readByte (0xC0 + k.val) →
    (∃ rest, s.inputs = .reset :: rest) ∨
    (s.busy = false ∧ ∃ b rest, s.inputs = .host (.write8 (0xC0 + k.val) b) :: rest) ∨
    ((s.inputs = [] ∨ ∃ rest, s.inputs = .sequencer :: rest) ∧ s.busy = true ∧
      s.outLen = 32#32 ∧ s.keyLen = 32#32 ∧ s.nonceLen = 16#32 ∧
      ∃ u i wo, s.prog[s.upc.toNat]? = some u ∧ decodeUop u = .ok (.pack i wo) ∧ wo.val = k.val / 4)

/-- The reset state meets the invariant. -/
def Obligations.ResetMeetsTheInvariant : Prop := State.reset.Inv

/-- Every step keeps the invariant: the memory's canonical form, `UROM` unchanged (R21, R43), `UPC <= 105` (R19), at
most one status bit (R16), the error record and `ERROR` together (R17), `QR_COUNT` the number of `QR` words passed
(R20), and the lengths right once `CHK` is passed (R38, R72). -/
def Obligations.StepKeepsTheInvariant : Prop :=
  ∀ s t : State, s.Inv → step s = .next t → t.Inv

/-- The hardware never meets a refusal of its own: from a state that meets the invariant a step answers a next state
unless the pending event is a host access R37 does not allow (R59, R120, R126). -/
def Obligations.HardwareNeverRefuses : Prop :=
  ∀ s : State, s.Inv → (∀ a rest, s.inputs = .host a :: rest → a.allowed) → ∃ t, step s = .next t

/-- After reset (R24): the control registers are 0, the size constants read 32, 32 and 16, `X` and the buffers hold the
parameters `RESET_X`, `RESET_KEY`, `RESET_NONCE`, `RESET_OUT` (free values: log 3, log 4), and a command started with
the reset lengths ends with the length error for `output`. -/
def Obligations.ResetLeaves : Prop :=
  let s := State.reset
  s.busy = false ∧ s.done = false ∧ s.error = false ∧ s.outLen = 0#32 ∧ s.keyLen = 0#32 ∧ s.nonceLen = 0#32 ∧
  s.errParam = .none ∧ s.errActual = 0#32 ∧ s.errExpected = 0#32 ∧ s.upc = 0#7 ∧ s.qrCount = 0#7 ∧
  s.readReg .outputSize = 32#32 ∧ s.readReg .keySize = 32#32 ∧ s.readReg .nonceSize = 16#32 ∧
  (∀ i : Idx, s.readX i = Config.resetX 0 i.val) ∧
  (∀ k < 32, s.readByte (0x80 + k) = Config.resetKey 0 k) ∧
  (∀ k < 16, s.readByte (0xA0 + k) = Config.resetNonce 0 k) ∧
  (∀ k < 32, s.readByte (0xC0 + k) = Config.resetOut 0 k) ∧
  runSteps 2 (s.withInputs [.host (.write32 0x00 1#32)]) = .next { s with
    error := true, errParam := .output, errActual := 0#32, errExpected := 32#32 }

/-- Reset in any state, a running command's too (R140, R142): the control state of R24 and a fresh draw of `X` and the
buffers; the command is gone and the sequencer has no step. The model's choices: the pending events, the host's last
answer and the micro-program stay (log 13); the draws are free values (log 3, log 4), numbered one higher than before
(log 5); the sequencer's step answers the same state (log 2). -/
def Obligations.ResetEventAborts : Prop :=
  ∀ (s : State) (rest : List Event), s.inputs = .reset :: rest →
    ∃ t, step s = .next t ∧
      t = { State.reset with
        x := t.x, resetDraws := s.resetDraws + 1, prog := s.prog, inputs := rest, readData := s.readData } ∧
      (∀ i : Idx, t.readX i = Config.resetX (s.resetDraws + 1) i.val) ∧
      (∀ k < 32, t.readByte (0xC0 + k) = Config.resetOut (s.resetDraws + 1) k) ∧
      (∀ k < 32, t.readByte (0x80 + k) = Config.resetKey (s.resetDraws + 1) k) ∧
      (∀ k < 16, t.readByte (0xA0 + k) = Config.resetNonce (s.resetDraws + 1) k) ∧
      sequencerStep t = .next t

/-- Several instances (R133): a step of one leaves every other as it is, and steps of two different instances give the
same in either order. -/
def Obligations.InstancesAreIndependent : Prop :=
  ∀ (n : Nat) (ss ts us : Instances n) (j k : Fin n), j ≠ k → instancesStep j ss = .next ts →
    ts[k] = ss[k] ∧
    (instancesStep k ts = .next us → ∃ vs, instancesStep k ss = .next vs ∧ instancesStep j vs = .next us)
end

