-- ==== Sys2Proof/Laws/State.lean ====
section
/-! SUPPORT. One lemma per field per update of State, true by rfl, so that no later proof unfolds a record update. -/

namespace Sys2Proof.Machine

variable (s : State)

/-! ### setStatus -/

@[simp] theorem State.setStatus_x (b d e : Bool) : (s.setStatus b d e).x = s.x := rfl
@[simp] theorem State.setStatus_mem (b d e : Bool) : (s.setStatus b d e).mem = s.mem := rfl
@[simp] theorem State.setStatus_outLen (b d e : Bool) : (s.setStatus b d e).outLen = s.outLen := rfl
@[simp] theorem State.setStatus_keyLen (b d e : Bool) : (s.setStatus b d e).keyLen = s.keyLen := rfl
@[simp] theorem State.setStatus_nonceLen (b d e : Bool) : (s.setStatus b d e).nonceLen = s.nonceLen := rfl
@[simp] theorem State.setStatus_busy (b d e : Bool) : (s.setStatus b d e).busy = b := rfl
@[simp] theorem State.setStatus_done (b d e : Bool) : (s.setStatus b d e).done = d := rfl
@[simp] theorem State.setStatus_error (b d e : Bool) : (s.setStatus b d e).error = e := rfl
@[simp] theorem State.setStatus_errParam (b d e : Bool) : (s.setStatus b d e).errParam = s.errParam := rfl
@[simp] theorem State.setStatus_errActual (b d e : Bool) : (s.setStatus b d e).errActual = s.errActual := rfl
@[simp] theorem State.setStatus_errExpected (b d e : Bool) : (s.setStatus b d e).errExpected = s.errExpected := rfl
@[simp] theorem State.setStatus_upc (b d e : Bool) : (s.setStatus b d e).upc = s.upc := rfl
@[simp] theorem State.setStatus_qrCount (b d e : Bool) : (s.setStatus b d e).qrCount = s.qrCount := rfl
@[simp] theorem State.setStatus_prog (b d e : Bool) : (s.setStatus b d e).prog = s.prog := rfl
@[simp] theorem State.setStatus_inputs (b d e : Bool) : (s.setStatus b d e).inputs = s.inputs := rfl
@[simp] theorem State.setStatus_readData (b d e : Bool) : (s.setStatus b d e).readData = s.readData := rfl
@[simp] theorem State.setStatus_resetDraws (b d e : Bool) : (s.setStatus b d e).resetDraws = s.resetDraws := rfl

/-! ### setErrorRecord -/

@[simp] theorem State.setErrorRecord_x (p : ErrParam) (u v : Word) : (s.setErrorRecord p u v).x = s.x := rfl
@[simp] theorem State.setErrorRecord_mem (p : ErrParam) (u v : Word) : (s.setErrorRecord p u v).mem = s.mem := rfl
@[simp] theorem State.setErrorRecord_outLen (p : ErrParam) (u v : Word) : (s.setErrorRecord p u v).outLen = s.outLen := rfl
@[simp] theorem State.setErrorRecord_keyLen (p : ErrParam) (u v : Word) : (s.setErrorRecord p u v).keyLen = s.keyLen := rfl
@[simp] theorem State.setErrorRecord_nonceLen (p : ErrParam) (u v : Word) : (s.setErrorRecord p u v).nonceLen = s.nonceLen := rfl
@[simp] theorem State.setErrorRecord_busy (p : ErrParam) (u v : Word) : (s.setErrorRecord p u v).busy = s.busy := rfl
@[simp] theorem State.setErrorRecord_done (p : ErrParam) (u v : Word) : (s.setErrorRecord p u v).done = s.done := rfl
@[simp] theorem State.setErrorRecord_error (p : ErrParam) (u v : Word) : (s.setErrorRecord p u v).error = s.error := rfl
@[simp] theorem State.setErrorRecord_errParam (p : ErrParam) (u v : Word) : (s.setErrorRecord p u v).errParam = p := rfl
@[simp] theorem State.setErrorRecord_errActual (p : ErrParam) (u v : Word) : (s.setErrorRecord p u v).errActual = u := rfl
@[simp] theorem State.setErrorRecord_errExpected (p : ErrParam) (u v : Word) : (s.setErrorRecord p u v).errExpected = v := rfl
@[simp] theorem State.setErrorRecord_upc (p : ErrParam) (u v : Word) : (s.setErrorRecord p u v).upc = s.upc := rfl
@[simp] theorem State.setErrorRecord_qrCount (p : ErrParam) (u v : Word) : (s.setErrorRecord p u v).qrCount = s.qrCount := rfl
@[simp] theorem State.setErrorRecord_prog (p : ErrParam) (u v : Word) : (s.setErrorRecord p u v).prog = s.prog := rfl
@[simp] theorem State.setErrorRecord_inputs (p : ErrParam) (u v : Word) : (s.setErrorRecord p u v).inputs = s.inputs := rfl
@[simp] theorem State.setErrorRecord_readData (p : ErrParam) (u v : Word) : (s.setErrorRecord p u v).readData = s.readData := rfl
@[simp] theorem State.setErrorRecord_resetDraws (p : ErrParam) (u v : Word) : (s.setErrorRecord p u v).resetDraws = s.resetDraws := rfl

/-! ### writeByte -/

@[simp] theorem State.writeByte_x (a : Nat) (b : Byte) : (s.writeByte a b).x = s.x := rfl
@[simp] theorem State.writeByte_mem (a : Nat) (b : Byte) : (s.writeByte a b).mem = Memory.write s.mem a b := rfl
@[simp] theorem State.writeByte_outLen (a : Nat) (b : Byte) : (s.writeByte a b).outLen = s.outLen := rfl
@[simp] theorem State.writeByte_keyLen (a : Nat) (b : Byte) : (s.writeByte a b).keyLen = s.keyLen := rfl
@[simp] theorem State.writeByte_nonceLen (a : Nat) (b : Byte) : (s.writeByte a b).nonceLen = s.nonceLen := rfl
@[simp] theorem State.writeByte_busy (a : Nat) (b : Byte) : (s.writeByte a b).busy = s.busy := rfl
@[simp] theorem State.writeByte_done (a : Nat) (b : Byte) : (s.writeByte a b).done = s.done := rfl
@[simp] theorem State.writeByte_error (a : Nat) (b : Byte) : (s.writeByte a b).error = s.error := rfl
@[simp] theorem State.writeByte_errParam (a : Nat) (b : Byte) : (s.writeByte a b).errParam = s.errParam := rfl
@[simp] theorem State.writeByte_errActual (a : Nat) (b : Byte) : (s.writeByte a b).errActual = s.errActual := rfl
@[simp] theorem State.writeByte_errExpected (a : Nat) (b : Byte) : (s.writeByte a b).errExpected = s.errExpected := rfl
@[simp] theorem State.writeByte_upc (a : Nat) (b : Byte) : (s.writeByte a b).upc = s.upc := rfl
@[simp] theorem State.writeByte_qrCount (a : Nat) (b : Byte) : (s.writeByte a b).qrCount = s.qrCount := rfl
@[simp] theorem State.writeByte_prog (a : Nat) (b : Byte) : (s.writeByte a b).prog = s.prog := rfl
@[simp] theorem State.writeByte_inputs (a : Nat) (b : Byte) : (s.writeByte a b).inputs = s.inputs := rfl
@[simp] theorem State.writeByte_readData (a : Nat) (b : Byte) : (s.writeByte a b).readData = s.readData := rfl
@[simp] theorem State.writeByte_resetDraws (a : Nat) (b : Byte) : (s.writeByte a b).resetDraws = s.resetDraws := rfl

/-! ### writeX -/

@[simp] theorem State.writeX_x (i : Idx) (v : Word) : (s.writeX i v).x = s.x.set i v := rfl
@[simp] theorem State.writeX_mem (i : Idx) (v : Word) : (s.writeX i v).mem = s.mem := rfl
@[simp] theorem State.writeX_outLen (i : Idx) (v : Word) : (s.writeX i v).outLen = s.outLen := rfl
@[simp] theorem State.writeX_keyLen (i : Idx) (v : Word) : (s.writeX i v).keyLen = s.keyLen := rfl
@[simp] theorem State.writeX_nonceLen (i : Idx) (v : Word) : (s.writeX i v).nonceLen = s.nonceLen := rfl
@[simp] theorem State.writeX_busy (i : Idx) (v : Word) : (s.writeX i v).busy = s.busy := rfl
@[simp] theorem State.writeX_done (i : Idx) (v : Word) : (s.writeX i v).done = s.done := rfl
@[simp] theorem State.writeX_error (i : Idx) (v : Word) : (s.writeX i v).error = s.error := rfl
@[simp] theorem State.writeX_errParam (i : Idx) (v : Word) : (s.writeX i v).errParam = s.errParam := rfl
@[simp] theorem State.writeX_errActual (i : Idx) (v : Word) : (s.writeX i v).errActual = s.errActual := rfl
@[simp] theorem State.writeX_errExpected (i : Idx) (v : Word) : (s.writeX i v).errExpected = s.errExpected := rfl
@[simp] theorem State.writeX_upc (i : Idx) (v : Word) : (s.writeX i v).upc = s.upc := rfl
@[simp] theorem State.writeX_qrCount (i : Idx) (v : Word) : (s.writeX i v).qrCount = s.qrCount := rfl
@[simp] theorem State.writeX_prog (i : Idx) (v : Word) : (s.writeX i v).prog = s.prog := rfl
@[simp] theorem State.writeX_inputs (i : Idx) (v : Word) : (s.writeX i v).inputs = s.inputs := rfl
@[simp] theorem State.writeX_readData (i : Idx) (v : Word) : (s.writeX i v).readData = s.readData := rfl
@[simp] theorem State.writeX_resetDraws (i : Idx) (v : Word) : (s.writeX i v).resetDraws = s.resetDraws := rfl

/-! ### countQr -/

@[simp] theorem State.countQr_x : (s.countQr).x = s.x := rfl
@[simp] theorem State.countQr_mem : (s.countQr).mem = s.mem := rfl
@[simp] theorem State.countQr_outLen : (s.countQr).outLen = s.outLen := rfl
@[simp] theorem State.countQr_keyLen : (s.countQr).keyLen = s.keyLen := rfl
@[simp] theorem State.countQr_nonceLen : (s.countQr).nonceLen = s.nonceLen := rfl
@[simp] theorem State.countQr_busy : (s.countQr).busy = s.busy := rfl
@[simp] theorem State.countQr_done : (s.countQr).done = s.done := rfl
@[simp] theorem State.countQr_error : (s.countQr).error = s.error := rfl
@[simp] theorem State.countQr_errParam : (s.countQr).errParam = s.errParam := rfl
@[simp] theorem State.countQr_errActual : (s.countQr).errActual = s.errActual := rfl
@[simp] theorem State.countQr_errExpected : (s.countQr).errExpected = s.errExpected := rfl
@[simp] theorem State.countQr_upc : (s.countQr).upc = s.upc := rfl
@[simp] theorem State.countQr_qrCount : (s.countQr).qrCount = s.qrCount + 1#7 := rfl
@[simp] theorem State.countQr_prog : (s.countQr).prog = s.prog := rfl
@[simp] theorem State.countQr_inputs : (s.countQr).inputs = s.inputs := rfl
@[simp] theorem State.countQr_readData : (s.countQr).readData = s.readData := rfl
@[simp] theorem State.countQr_resetDraws : (s.countQr).resetDraws = s.resetDraws := rfl

/-! ### start -/

@[simp] theorem State.start_x : (s.start).x = s.x := rfl
@[simp] theorem State.start_mem : (s.start).mem = s.mem := rfl
@[simp] theorem State.start_outLen : (s.start).outLen = s.outLen := rfl
@[simp] theorem State.start_keyLen : (s.start).keyLen = s.keyLen := rfl
@[simp] theorem State.start_nonceLen : (s.start).nonceLen = s.nonceLen := rfl
@[simp] theorem State.start_busy : (s.start).busy = true := rfl
@[simp] theorem State.start_done : (s.start).done = false := rfl
@[simp] theorem State.start_error : (s.start).error = false := rfl
@[simp] theorem State.start_errParam : (s.start).errParam = .none := rfl
@[simp] theorem State.start_errActual : (s.start).errActual = 0#32 := rfl
@[simp] theorem State.start_errExpected : (s.start).errExpected = 0#32 := rfl
@[simp] theorem State.start_upc : (s.start).upc = 0#7 := rfl
@[simp] theorem State.start_qrCount : (s.start).qrCount = 0#7 := rfl
@[simp] theorem State.start_prog : (s.start).prog = s.prog := rfl
@[simp] theorem State.start_inputs : (s.start).inputs = s.inputs := rfl
@[simp] theorem State.start_readData : (s.start).readData = s.readData := rfl
@[simp] theorem State.start_resetDraws : (s.start).resetDraws = s.resetDraws := rfl

/-! ### raiseInvalidLength -/

@[simp] theorem State.raiseInvalidLength_x (p : ErrParam) (u v : Word) : (s.raiseInvalidLength p u v).x = s.x := rfl
@[simp] theorem State.raiseInvalidLength_mem (p : ErrParam) (u v : Word) : (s.raiseInvalidLength p u v).mem = s.mem := rfl
@[simp] theorem State.raiseInvalidLength_outLen (p : ErrParam) (u v : Word) : (s.raiseInvalidLength p u v).outLen = s.outLen := rfl
@[simp] theorem State.raiseInvalidLength_keyLen (p : ErrParam) (u v : Word) : (s.raiseInvalidLength p u v).keyLen = s.keyLen := rfl
@[simp] theorem State.raiseInvalidLength_nonceLen (p : ErrParam) (u v : Word) : (s.raiseInvalidLength p u v).nonceLen = s.nonceLen := rfl
@[simp] theorem State.raiseInvalidLength_busy (p : ErrParam) (u v : Word) : (s.raiseInvalidLength p u v).busy = false := rfl
@[simp] theorem State.raiseInvalidLength_done (p : ErrParam) (u v : Word) : (s.raiseInvalidLength p u v).done = s.done := rfl
@[simp] theorem State.raiseInvalidLength_error (p : ErrParam) (u v : Word) : (s.raiseInvalidLength p u v).error = true := rfl
@[simp] theorem State.raiseInvalidLength_errParam (p : ErrParam) (u v : Word) : (s.raiseInvalidLength p u v).errParam = p := rfl
@[simp] theorem State.raiseInvalidLength_errActual (p : ErrParam) (u v : Word) : (s.raiseInvalidLength p u v).errActual = u := rfl
@[simp] theorem State.raiseInvalidLength_errExpected (p : ErrParam) (u v : Word) : (s.raiseInvalidLength p u v).errExpected = v := rfl
@[simp] theorem State.raiseInvalidLength_upc (p : ErrParam) (u v : Word) : (s.raiseInvalidLength p u v).upc = s.upc := rfl
@[simp] theorem State.raiseInvalidLength_qrCount (p : ErrParam) (u v : Word) : (s.raiseInvalidLength p u v).qrCount = s.qrCount := rfl
@[simp] theorem State.raiseInvalidLength_prog (p : ErrParam) (u v : Word) : (s.raiseInvalidLength p u v).prog = s.prog := rfl
@[simp] theorem State.raiseInvalidLength_inputs (p : ErrParam) (u v : Word) : (s.raiseInvalidLength p u v).inputs = s.inputs := rfl
@[simp] theorem State.raiseInvalidLength_readData (p : ErrParam) (u v : Word) : (s.raiseInvalidLength p u v).readData = s.readData := rfl
@[simp] theorem State.raiseInvalidLength_resetDraws (p : ErrParam) (u v : Word) : (s.raiseInvalidLength p u v).resetDraws = s.resetDraws := rfl

/-! ### finish -/

@[simp] theorem State.finish_x : (s.finish).x = s.x := rfl
@[simp] theorem State.finish_mem : (s.finish).mem = s.mem := rfl
@[simp] theorem State.finish_outLen : (s.finish).outLen = s.outLen := rfl
@[simp] theorem State.finish_keyLen : (s.finish).keyLen = s.keyLen := rfl
@[simp] theorem State.finish_nonceLen : (s.finish).nonceLen = s.nonceLen := rfl
@[simp] theorem State.finish_busy : (s.finish).busy = false := rfl
@[simp] theorem State.finish_done : (s.finish).done = true := rfl
@[simp] theorem State.finish_error : (s.finish).error = s.error := rfl
@[simp] theorem State.finish_errParam : (s.finish).errParam = s.errParam := rfl
@[simp] theorem State.finish_errActual : (s.finish).errActual = s.errActual := rfl
@[simp] theorem State.finish_errExpected : (s.finish).errExpected = s.errExpected := rfl
@[simp] theorem State.finish_upc : (s.finish).upc = s.upc := rfl
@[simp] theorem State.finish_qrCount : (s.finish).qrCount = s.qrCount := rfl
@[simp] theorem State.finish_prog : (s.finish).prog = s.prog := rfl
@[simp] theorem State.finish_inputs : (s.finish).inputs = s.inputs := rfl
@[simp] theorem State.finish_readData : (s.finish).readData = s.readData := rfl
@[simp] theorem State.finish_resetDraws : (s.finish).resetDraws = s.resetDraws := rfl

/-! ### bumpUpc -/

@[simp] theorem State.bumpUpc_x : (s.bumpUpc).x = s.x := rfl
@[simp] theorem State.bumpUpc_mem : (s.bumpUpc).mem = s.mem := rfl
@[simp] theorem State.bumpUpc_outLen : (s.bumpUpc).outLen = s.outLen := rfl
@[simp] theorem State.bumpUpc_keyLen : (s.bumpUpc).keyLen = s.keyLen := rfl
@[simp] theorem State.bumpUpc_nonceLen : (s.bumpUpc).nonceLen = s.nonceLen := rfl
@[simp] theorem State.bumpUpc_busy : (s.bumpUpc).busy = s.busy := rfl
@[simp] theorem State.bumpUpc_done : (s.bumpUpc).done = s.done := rfl
@[simp] theorem State.bumpUpc_error : (s.bumpUpc).error = s.error := rfl
@[simp] theorem State.bumpUpc_errParam : (s.bumpUpc).errParam = s.errParam := rfl
@[simp] theorem State.bumpUpc_errActual : (s.bumpUpc).errActual = s.errActual := rfl
@[simp] theorem State.bumpUpc_errExpected : (s.bumpUpc).errExpected = s.errExpected := rfl
@[simp] theorem State.bumpUpc_upc : (s.bumpUpc).upc = s.upc + 1#7 := rfl
@[simp] theorem State.bumpUpc_qrCount : (s.bumpUpc).qrCount = s.qrCount := rfl
@[simp] theorem State.bumpUpc_prog : (s.bumpUpc).prog = s.prog := rfl
@[simp] theorem State.bumpUpc_inputs : (s.bumpUpc).inputs = s.inputs := rfl
@[simp] theorem State.bumpUpc_readData : (s.bumpUpc).readData = s.readData := rfl
@[simp] theorem State.bumpUpc_resetDraws : (s.bumpUpc).resetDraws = s.resetDraws := rfl

/-! ### setOutLen -/

@[simp] theorem State.setOutLen_x (w : Word) : (s.setOutLen w).x = s.x := rfl
@[simp] theorem State.setOutLen_mem (w : Word) : (s.setOutLen w).mem = s.mem := rfl
@[simp] theorem State.setOutLen_outLen (w : Word) : (s.setOutLen w).outLen = w := rfl
@[simp] theorem State.setOutLen_keyLen (w : Word) : (s.setOutLen w).keyLen = s.keyLen := rfl
@[simp] theorem State.setOutLen_nonceLen (w : Word) : (s.setOutLen w).nonceLen = s.nonceLen := rfl
@[simp] theorem State.setOutLen_busy (w : Word) : (s.setOutLen w).busy = s.busy := rfl
@[simp] theorem State.setOutLen_done (w : Word) : (s.setOutLen w).done = s.done := rfl
@[simp] theorem State.setOutLen_error (w : Word) : (s.setOutLen w).error = s.error := rfl
@[simp] theorem State.setOutLen_errParam (w : Word) : (s.setOutLen w).errParam = s.errParam := rfl
@[simp] theorem State.setOutLen_errActual (w : Word) : (s.setOutLen w).errActual = s.errActual := rfl
@[simp] theorem State.setOutLen_errExpected (w : Word) : (s.setOutLen w).errExpected = s.errExpected := rfl
@[simp] theorem State.setOutLen_upc (w : Word) : (s.setOutLen w).upc = s.upc := rfl
@[simp] theorem State.setOutLen_qrCount (w : Word) : (s.setOutLen w).qrCount = s.qrCount := rfl
@[simp] theorem State.setOutLen_prog (w : Word) : (s.setOutLen w).prog = s.prog := rfl
@[simp] theorem State.setOutLen_inputs (w : Word) : (s.setOutLen w).inputs = s.inputs := rfl
@[simp] theorem State.setOutLen_readData (w : Word) : (s.setOutLen w).readData = s.readData := rfl
@[simp] theorem State.setOutLen_resetDraws (w : Word) : (s.setOutLen w).resetDraws = s.resetDraws := rfl

/-! ### setKeyLen -/

@[simp] theorem State.setKeyLen_x (w : Word) : (s.setKeyLen w).x = s.x := rfl
@[simp] theorem State.setKeyLen_mem (w : Word) : (s.setKeyLen w).mem = s.mem := rfl
@[simp] theorem State.setKeyLen_outLen (w : Word) : (s.setKeyLen w).outLen = s.outLen := rfl
@[simp] theorem State.setKeyLen_keyLen (w : Word) : (s.setKeyLen w).keyLen = w := rfl
@[simp] theorem State.setKeyLen_nonceLen (w : Word) : (s.setKeyLen w).nonceLen = s.nonceLen := rfl
@[simp] theorem State.setKeyLen_busy (w : Word) : (s.setKeyLen w).busy = s.busy := rfl
@[simp] theorem State.setKeyLen_done (w : Word) : (s.setKeyLen w).done = s.done := rfl
@[simp] theorem State.setKeyLen_error (w : Word) : (s.setKeyLen w).error = s.error := rfl
@[simp] theorem State.setKeyLen_errParam (w : Word) : (s.setKeyLen w).errParam = s.errParam := rfl
@[simp] theorem State.setKeyLen_errActual (w : Word) : (s.setKeyLen w).errActual = s.errActual := rfl
@[simp] theorem State.setKeyLen_errExpected (w : Word) : (s.setKeyLen w).errExpected = s.errExpected := rfl
@[simp] theorem State.setKeyLen_upc (w : Word) : (s.setKeyLen w).upc = s.upc := rfl
@[simp] theorem State.setKeyLen_qrCount (w : Word) : (s.setKeyLen w).qrCount = s.qrCount := rfl
@[simp] theorem State.setKeyLen_prog (w : Word) : (s.setKeyLen w).prog = s.prog := rfl
@[simp] theorem State.setKeyLen_inputs (w : Word) : (s.setKeyLen w).inputs = s.inputs := rfl
@[simp] theorem State.setKeyLen_readData (w : Word) : (s.setKeyLen w).readData = s.readData := rfl
@[simp] theorem State.setKeyLen_resetDraws (w : Word) : (s.setKeyLen w).resetDraws = s.resetDraws := rfl

/-! ### setNonceLen -/

@[simp] theorem State.setNonceLen_x (w : Word) : (s.setNonceLen w).x = s.x := rfl
@[simp] theorem State.setNonceLen_mem (w : Word) : (s.setNonceLen w).mem = s.mem := rfl
@[simp] theorem State.setNonceLen_outLen (w : Word) : (s.setNonceLen w).outLen = s.outLen := rfl
@[simp] theorem State.setNonceLen_keyLen (w : Word) : (s.setNonceLen w).keyLen = s.keyLen := rfl
@[simp] theorem State.setNonceLen_nonceLen (w : Word) : (s.setNonceLen w).nonceLen = w := rfl
@[simp] theorem State.setNonceLen_busy (w : Word) : (s.setNonceLen w).busy = s.busy := rfl
@[simp] theorem State.setNonceLen_done (w : Word) : (s.setNonceLen w).done = s.done := rfl
@[simp] theorem State.setNonceLen_error (w : Word) : (s.setNonceLen w).error = s.error := rfl
@[simp] theorem State.setNonceLen_errParam (w : Word) : (s.setNonceLen w).errParam = s.errParam := rfl
@[simp] theorem State.setNonceLen_errActual (w : Word) : (s.setNonceLen w).errActual = s.errActual := rfl
@[simp] theorem State.setNonceLen_errExpected (w : Word) : (s.setNonceLen w).errExpected = s.errExpected := rfl
@[simp] theorem State.setNonceLen_upc (w : Word) : (s.setNonceLen w).upc = s.upc := rfl
@[simp] theorem State.setNonceLen_qrCount (w : Word) : (s.setNonceLen w).qrCount = s.qrCount := rfl
@[simp] theorem State.setNonceLen_prog (w : Word) : (s.setNonceLen w).prog = s.prog := rfl
@[simp] theorem State.setNonceLen_inputs (w : Word) : (s.setNonceLen w).inputs = s.inputs := rfl
@[simp] theorem State.setNonceLen_readData (w : Word) : (s.setNonceLen w).readData = s.readData := rfl
@[simp] theorem State.setNonceLen_resetDraws (w : Word) : (s.setNonceLen w).resetDraws = s.resetDraws := rfl

/-! ### answer -/

@[simp] theorem State.answer_x (v : HostData) : (s.answer v).x = s.x := rfl
@[simp] theorem State.answer_mem (v : HostData) : (s.answer v).mem = s.mem := rfl
@[simp] theorem State.answer_outLen (v : HostData) : (s.answer v).outLen = s.outLen := rfl
@[simp] theorem State.answer_keyLen (v : HostData) : (s.answer v).keyLen = s.keyLen := rfl
@[simp] theorem State.answer_nonceLen (v : HostData) : (s.answer v).nonceLen = s.nonceLen := rfl
@[simp] theorem State.answer_busy (v : HostData) : (s.answer v).busy = s.busy := rfl
@[simp] theorem State.answer_done (v : HostData) : (s.answer v).done = s.done := rfl
@[simp] theorem State.answer_error (v : HostData) : (s.answer v).error = s.error := rfl
@[simp] theorem State.answer_errParam (v : HostData) : (s.answer v).errParam = s.errParam := rfl
@[simp] theorem State.answer_errActual (v : HostData) : (s.answer v).errActual = s.errActual := rfl
@[simp] theorem State.answer_errExpected (v : HostData) : (s.answer v).errExpected = s.errExpected := rfl
@[simp] theorem State.answer_upc (v : HostData) : (s.answer v).upc = s.upc := rfl
@[simp] theorem State.answer_qrCount (v : HostData) : (s.answer v).qrCount = s.qrCount := rfl
@[simp] theorem State.answer_prog (v : HostData) : (s.answer v).prog = s.prog := rfl
@[simp] theorem State.answer_inputs (v : HostData) : (s.answer v).inputs = s.inputs := rfl
@[simp] theorem State.answer_readData (v : HostData) : (s.answer v).readData = some v := rfl
@[simp] theorem State.answer_resetDraws (v : HostData) : (s.answer v).resetDraws = s.resetDraws := rfl

/-! ### withInputs -/

@[simp] theorem State.withInputs_x (es : List Event) : (s.withInputs es).x = s.x := rfl
@[simp] theorem State.withInputs_mem (es : List Event) : (s.withInputs es).mem = s.mem := rfl
@[simp] theorem State.withInputs_outLen (es : List Event) : (s.withInputs es).outLen = s.outLen := rfl
@[simp] theorem State.withInputs_keyLen (es : List Event) : (s.withInputs es).keyLen = s.keyLen := rfl
@[simp] theorem State.withInputs_nonceLen (es : List Event) : (s.withInputs es).nonceLen = s.nonceLen := rfl
@[simp] theorem State.withInputs_busy (es : List Event) : (s.withInputs es).busy = s.busy := rfl
@[simp] theorem State.withInputs_done (es : List Event) : (s.withInputs es).done = s.done := rfl
@[simp] theorem State.withInputs_error (es : List Event) : (s.withInputs es).error = s.error := rfl
@[simp] theorem State.withInputs_errParam (es : List Event) : (s.withInputs es).errParam = s.errParam := rfl
@[simp] theorem State.withInputs_errActual (es : List Event) : (s.withInputs es).errActual = s.errActual := rfl
@[simp] theorem State.withInputs_errExpected (es : List Event) : (s.withInputs es).errExpected = s.errExpected := rfl
@[simp] theorem State.withInputs_upc (es : List Event) : (s.withInputs es).upc = s.upc := rfl
@[simp] theorem State.withInputs_qrCount (es : List Event) : (s.withInputs es).qrCount = s.qrCount := rfl
@[simp] theorem State.withInputs_prog (es : List Event) : (s.withInputs es).prog = s.prog := rfl
@[simp] theorem State.withInputs_inputs (es : List Event) : (s.withInputs es).inputs = es := rfl
@[simp] theorem State.withInputs_readData (es : List Event) : (s.withInputs es).readData = s.readData := rfl
@[simp] theorem State.withInputs_resetDraws (es : List Event) : (s.withInputs es).resetDraws = s.resetDraws := rfl

/-! ### resetEvent -/

@[simp] theorem State.resetEvent_x : s.resetEvent.x = resetWords (s.resetDraws + 1) := rfl
@[simp] theorem State.resetEvent_mem : s.resetEvent.mem = [] := rfl
@[simp] theorem State.resetEvent_outLen : s.resetEvent.outLen = 0#32 := rfl
@[simp] theorem State.resetEvent_keyLen : s.resetEvent.keyLen = 0#32 := rfl
@[simp] theorem State.resetEvent_nonceLen : s.resetEvent.nonceLen = 0#32 := rfl
@[simp] theorem State.resetEvent_busy : s.resetEvent.busy = false := rfl
@[simp] theorem State.resetEvent_done : s.resetEvent.done = false := rfl
@[simp] theorem State.resetEvent_error : s.resetEvent.error = false := rfl
@[simp] theorem State.resetEvent_errParam : s.resetEvent.errParam = .none := rfl
@[simp] theorem State.resetEvent_errActual : s.resetEvent.errActual = 0#32 := rfl
@[simp] theorem State.resetEvent_errExpected : s.resetEvent.errExpected = 0#32 := rfl
@[simp] theorem State.resetEvent_upc : s.resetEvent.upc = 0#7 := rfl
@[simp] theorem State.resetEvent_qrCount : s.resetEvent.qrCount = 0#7 := rfl
@[simp] theorem State.resetEvent_prog : s.resetEvent.prog = s.prog := rfl
@[simp] theorem State.resetEvent_inputs : s.resetEvent.inputs = s.inputs := rfl
@[simp] theorem State.resetEvent_readData : s.resetEvent.readData = s.readData := rfl
@[simp] theorem State.resetEvent_resetDraws : s.resetEvent.resetDraws = s.resetDraws + 1 := rfl

end Sys2Proof.Machine
end

