-- ==== Sys2Proof/Laws/Memory.lean ====
section
/-! SUPPORT. The laws of the byte memory: a read after a write, the canonical form, and that equal contents are equal
lists. -/

namespace Sys2Proof.Machine

theorem Memory.lookup_write (m : List Host.Cell) (a c : Nat) (b : Byte) :
    Memory.lookup (Memory.write m a b) c = if c = a then some b else Memory.lookup m c := by
  induction m with
  | nil => simp [Memory.write, Memory.lookup]
  | cons e t ih =>
    obtain ⟨k, v⟩ := e
    by_cases h1 : a < k
    · simp [Memory.write, Memory.lookup, h1]
    · by_cases h2 : a = k
      · subst h2
        by_cases h3 : c = a <;> simp [Memory.write, Memory.lookup, h3]
      · by_cases h3 : c = k
        · have h4 : c ≠ a := by omega
          simp [Memory.write, Memory.lookup, h1, h2, h3, Ne.symm h2]
        · simp [Memory.write, Memory.lookup, h1, h2, h3, ih]

theorem Memory.read_write (d : Nat) (m : List Host.Cell) (a c : Nat) (b : Byte) :
    Memory.read d (Memory.write m a b) c = if c = a then b else Memory.read d m c := by
  unfold Memory.read
  rw [Memory.lookup_write]
  split <;> rfl

theorem Memory.wfFrom_mono {lo lo' : Nat} (h : lo' ≤ lo) {m : List Host.Cell} (hm : Memory.wfFrom lo m = true) :
    Memory.wfFrom lo' m = true := by
  cases m with
  | nil => rfl
  | cons e t =>
    simp only [Memory.wfFrom, Bool.and_eq_true, decide_eq_true_eq] at hm ⊢
    exact ⟨⟨by omega, hm.1.2⟩, hm.2⟩

theorem Memory.wfFrom_write {a : Nat} (ha : isBufferAddr a = true) (b : Byte) :
    ∀ {m : List Host.Cell} {lo : Nat}, lo ≤ a → Memory.wfFrom lo m = true →
      Memory.wfFrom lo (Memory.write m a b) = true := by
  intro m
  induction m with
  | nil => intro lo hlo _; simp [Memory.write, Memory.wfFrom, hlo, ha]
  | cons e t ih =>
    intro lo hlo hm
    obtain ⟨k, v⟩ := e
    simp only [Memory.wfFrom, Bool.and_eq_true, decide_eq_true_eq] at hm
    by_cases h1 : a < k
    · simp only [Memory.write, h1, if_true, Memory.wfFrom, Bool.and_eq_true, decide_eq_true_eq]
      exact ⟨⟨hlo, ha⟩, ⟨by omega, hm.1.2⟩, hm.2⟩
    · by_cases h2 : a = k
      · subst h2
        simp only [Memory.write, h1, if_true, if_false, Memory.wfFrom, Bool.and_eq_true, decide_eq_true_eq]
        exact ⟨⟨hlo, ha⟩, hm.2⟩
      · simp only [Memory.write, h1, h2, if_false, Memory.wfFrom, Bool.and_eq_true, decide_eq_true_eq]
        exact ⟨hm.1, ih (by omega) hm.2⟩

/-- A write of a buffer byte keeps the canonical form. -/
theorem Memory.wf_write {m : List Host.Cell} {a : Nat} (b : Byte) (ha : isBufferAddr a = true)
    (hm : Memory.wf m = true) : Memory.wf (Memory.write m a b) = true :=
  Memory.wfFrom_write ha b (Nat.zero_le a) hm

theorem Memory.reset_wf : Memory.wf State.reset.mem = true := rfl

theorem Memory.lookup_none_of_lt {lo a : Nat} (h : a < lo) :
    ∀ {m : List Host.Cell}, Memory.wfFrom lo m = true → Memory.lookup m a = none := by
  intro m
  induction m generalizing lo with
  | nil => intro _; rfl
  | cons e t ih =>
    intro hm
    obtain ⟨k, v⟩ := e
    simp only [Memory.wfFrom, Bool.and_eq_true, decide_eq_true_eq] at hm
    have hk : a ≠ k := by omega
    simp only [Memory.lookup, hk, if_false]
    exact ih (by omega) hm.2

theorem Memory.ext_of_wfFrom : ∀ {m n : List Host.Cell} {lo : Nat}, Memory.wfFrom lo m = true →
    Memory.wfFrom lo n = true → (∀ a, Memory.lookup m a = Memory.lookup n a) → m = n := by
  intro m
  induction m with
  | nil =>
    intro n lo _ hn h
    cases n with
    | nil => rfl
    | cons e t => have := h e.1; simp [Memory.lookup] at this
  | cons e t ih =>
    intro n lo hm hn h
    obtain ⟨k, v⟩ := e
    cases n with
    | nil => have := h k; simp [Memory.lookup] at this
    | cons e' t' =>
      obtain ⟨k', v'⟩ := e'
      simp only [Memory.wfFrom, Bool.and_eq_true, decide_eq_true_eq] at hm hn
      have hkk : k = k' := by
        by_contra hne
        rcases Nat.lt_or_gt_of_ne hne with hlt | hgt
        · have h1 := h k
          have h2 := Memory.lookup_none_of_lt (a := k) (by omega) hn.2
          simp only [Memory.lookup, if_true, hne, if_false] at h1
          rw [h2] at h1
          exact absurd h1 (by simp)
        · have h1 := h k'
          have h2 := Memory.lookup_none_of_lt (a := k') (by omega) hm.2
          simp only [Memory.lookup, if_true, Ne.symm hne, if_false] at h1
          rw [h2] at h1
          exact absurd h1 (by simp)
      subst hkk
      have hv : v = v' := by simpa [Memory.lookup] using h k
      subst hv
      have ht : t = t' := by
        refine ih hm.2 hn.2 fun a => ?_
        by_cases ha : a = k
        · subst ha
          rw [Memory.lookup_none_of_lt (Nat.lt_succ_self a) hm.2, Memory.lookup_none_of_lt (Nat.lt_succ_self a) hn.2]
        · simpa [Memory.lookup, ha] using h a
      rw [ht]

/-- Two memories in canonical form with the same listed bytes are the same list. -/
theorem Memory.ext_of_wf {m n : List Host.Cell} (hm : Memory.wf m = true) (hn : Memory.wf n = true)
    (h : ∀ a, Memory.lookup m a = Memory.lookup n a) : m = n :=
  Memory.ext_of_wfFrom hm hn h

/-! ### Bytes of a state -/

variable (s : State)

theorem State.readByte_writeByte (a c : Nat) (b : Byte) :
    (s.writeByte a b).readByte c = if c = a then b else s.readByte c :=
  Memory.read_write s.resetDraws s.mem a c b

/-- What a word store does to every byte: the four bytes of its slice, little-endian, and no other. -/
theorem State.readByte_writeWordLE (a c : Nat) (w : Word) :
    (s.writeWordLE a w).readByte c =
      if a ≤ c ∧ c < a + 4 then byteOfWord w (c - a) else s.readByte c := by
  unfold State.writeWordLE
  simp only [State.readByte_writeByte]
  by_cases h : a ≤ c ∧ c < a + 4
  · obtain ⟨h1, h2⟩ := h
    have hc : c = a ∨ c = a + 1 ∨ c = a + 2 ∨ c = a + 3 := by omega
    rcases hc with rfl | rfl | rfl | rfl <;> simp
  · have h0 : c ≠ a := by omega
    have h1 : c ≠ a + 1 := by omega
    have h2 : c ≠ a + 2 := by omega
    have h3 : c ≠ a + 3 := by omega
    simp only [h0, h1, h2, h3, if_false, h]

theorem State.readByte_congr {s t : State} (hm : t.mem = s.mem) (hd : t.resetDraws = s.resetDraws) (a : Nat) :
    t.readByte a = s.readByte a := by
  unfold State.readByte; rw [hm, hd]

@[simp] theorem State.readByte_setStatus (b d e : Bool) (a : Nat) : (s.setStatus b d e).readByte a = s.readByte a := rfl
@[simp] theorem State.readByte_setErrorRecord (p : ErrParam) (u v : Word) (a : Nat) :
    (s.setErrorRecord p u v).readByte a = s.readByte a := rfl
@[simp] theorem State.readByte_writeX (i : Idx) (v : Word) (a : Nat) : (s.writeX i v).readByte a = s.readByte a := rfl
@[simp] theorem State.readByte_countQr (a : Nat) : s.countQr.readByte a = s.readByte a := rfl
@[simp] theorem State.readByte_bumpUpc (a : Nat) : s.bumpUpc.readByte a = s.readByte a := rfl
@[simp] theorem State.readByte_answer (v : HostData) (a : Nat) : (s.answer v).readByte a = s.readByte a := rfl
@[simp] theorem State.readByte_setOutLen (w : Word) (a : Nat) : (s.setOutLen w).readByte a = s.readByte a := rfl
@[simp] theorem State.readByte_setKeyLen (w : Word) (a : Nat) : (s.setKeyLen w).readByte a = s.readByte a := rfl
@[simp] theorem State.readByte_setNonceLen (w : Word) (a : Nat) : (s.setNonceLen w).readByte a = s.readByte a := rfl
@[simp] theorem State.readByte_start (a : Nat) : s.start.readByte a = s.readByte a := rfl
@[simp] theorem State.readByte_raiseInvalidLength (p : ErrParam) (u v : Word) (a : Nat) :
    (s.raiseInvalidLength p u v).readByte a = s.readByte a := rfl
@[simp] theorem State.readByte_finish (a : Nat) : s.finish.readByte a = s.readByte a := rfl
@[simp] theorem State.readByte_withInputs (es : List Event) (a : Nat) : (s.withInputs es).readByte a = s.readByte a := rfl

/-! ### Words of the working state -/

theorem State.readX_writeX (i j : Idx) (v : Word) :
    (s.writeX i v).readX j = if j = i then v else s.readX j := by
  by_cases h : j = i
  · subst h; simp [State.readX]
  · have h' : (i : Nat) ≠ j := fun e => h (Fin.ext e.symm)
    simp [State.readX, h, Vector.getElem_set_ne _ _ h']

@[simp] theorem State.readX_writeByte (a : Nat) (b : Byte) (j : Idx) : (s.writeByte a b).readX j = s.readX j := rfl
@[simp] theorem State.readX_countQr (j : Idx) : s.countQr.readX j = s.readX j := rfl
@[simp] theorem State.readX_bumpUpc (j : Idx) : s.bumpUpc.readX j = s.readX j := rfl
@[simp] theorem State.readX_answer (v : HostData) (j : Idx) : (s.answer v).readX j = s.readX j := rfl
@[simp] theorem State.readX_setOutLen (w : Word) (j : Idx) : (s.setOutLen w).readX j = s.readX j := rfl
@[simp] theorem State.readX_setKeyLen (w : Word) (j : Idx) : (s.setKeyLen w).readX j = s.readX j := rfl
@[simp] theorem State.readX_setNonceLen (w : Word) (j : Idx) : (s.setNonceLen w).readX j = s.readX j := rfl
@[simp] theorem State.readX_start (j : Idx) : s.start.readX j = s.readX j := rfl
@[simp] theorem State.readX_raiseInvalidLength (p : ErrParam) (u v : Word) (j : Idx) :
    (s.raiseInvalidLength p u v).readX j = s.readX j := rfl
@[simp] theorem State.readX_finish (j : Idx) : s.finish.readX j = s.readX j := rfl
@[simp] theorem State.readX_withInputs (es : List Event) (j : Idx) : (s.withInputs es).readX j = s.readX j := rfl

/-- What writing back a quarter-round does to every word, for pairwise distinct indices. -/
theorem State.readX_writeQuad {a b c d : Idx} (h : pairwiseDistinct a b c d = true) (q : Quad) (j : Idx) :
    (s.writeQuad a b c d q).readX j =
      if j = a then q.a else if j = b then q.b else if j = c then q.c else if j = d then q.d else s.readX j := by
  simp only [pairwiseDistinct, decide_eq_true_eq] at h
  obtain ⟨hab, hac, had, hbc, hbd, hcd⟩ := h
  unfold State.writeQuad
  simp only [State.readX_writeX]
  by_cases ha : j = a
  · subst ha; simp [hab, hac, had]
  · by_cases hb : j = b
    · subst hb; simp [hbc, hbd, ha]
    · by_cases hc : j = c
      · subst hc; simp [hcd, ha, hb]
      · by_cases hd : j = d
        · subst hd; simp [ha, hb, hc]
        · simp [ha, hb, hc, hd]

end Sys2Proof.Machine
end

