-- ==== Sys2Proof/Laws/Ops.lean ====
section
/-! SUPPORT. One lemma per shared operation and per meaning that says once all it can do; later proofs cite these. -/

namespace Sys2Proof.Machine

variable {s t : State}

/-! ### Composite updates: the fields they leave -/

theorem State.writeQuad_eq (s : State) (a b c d : Idx) (q : Quad) :
    s.writeQuad a b c d q = { s with x := (((s.x.set a q.a).set b q.b).set c q.c).set d q.d } := rfl

theorem State.writeWordLE_eq (s : State) (a : Nat) (w : Word) :
    s.writeWordLE a w = { s with mem := (s.writeWordLE a w).mem } := rfl

/-- A word store into a buffer keeps the canonical form of the memory. -/
theorem State.writeWordLE_wf {a : Nat} (w : Word) (h0 : isBufferAddr a = true) (h1 : isBufferAddr (a + 1) = true)
    (h2 : isBufferAddr (a + 2) = true) (h3 : isBufferAddr (a + 3) = true) (hm : Memory.wf s.mem = true) :
    Memory.wf (s.writeWordLE a w).mem = true :=
  Memory.wf_write _ h3 (Memory.wf_write _ h2 (Memory.wf_write _ h1 (Memory.wf_write _ h0 hm)))

/-- Every slice of `OUT` lies in the buffer. -/
theorem outAddr_isBuffer (wo : Fin 8) (n : Nat) (hn : n < 4) : isBufferAddr (outAddr wo + n) = true := by
  refine decide_eq_true ?_
  unfold outAddr outBase
  omega

/-- Every slice `UNPK` reads lies in its buffer. -/
theorem sliceAddr_isBuffer {src : Source} {wo : Fin 8} (h : sliceInBuffer src wo = true) (n : Nat) (hn : n < 4) :
    isBufferAddr (sliceAddr src wo + n) = true := by
  refine decide_eq_true ?_
  cases src with
  | key =>
    show 0x80 ≤ 0x80 + 4 * wo.val + n ∧ 0x80 + 4 * wo.val + n < 0xB0 ∨
      0xC0 ≤ 0x80 + 4 * wo.val + n ∧ 0x80 + 4 * wo.val + n < 0xE0
    omega
  | nonce =>
    have hw : wo.val < 4 := of_decide_eq_true h
    show 0x80 ≤ 0xA0 + 4 * wo.val + n ∧ 0xA0 + 4 * wo.val + n < 0xB0 ∨
      0xC0 ≤ 0xA0 + 4 * wo.val + n ∧ 0xA0 + 4 * wo.val + n < 0xE0
    omega

/-! ### Advance -/

theorem State.advance_of_ne (h : s.upc ≠ 127#7) : s.advance = .next s.bumpUpc := by
  unfold State.advance; rw [if_neg h]

theorem State.advance_next (h : s.advance = .next t) : s.upc ≠ 127#7 ∧ t = s.bumpUpc := by
  unfold State.advance at h
  split at h
  · cases h
  · cases h; exact ⟨‹_›, rfl⟩

/-! ### The meanings: all that each can do when it answers a next state -/

theorem execDeriveKey_next (h : execDeriveKey s = .next t) :
    (s.busy = true ∧ t = s) ∨ (s.busy = false ∧ t = s.start) := by
  unfold execDeriveKey at h
  split at h
  · cases h; exact .inl ⟨‹_›, rfl⟩
  · cases h; exact .inr ⟨by simpa using ‹¬s.busy = true›, rfl⟩

theorem execChk_next (h : execChk s = .next t) :
    (∃ p u v, s.lengthError = some (p, u, v) ∧ t = s.raiseInvalidLength p u v) ∨
    (s.lengthError = none ∧ s.upc ≠ 127#7 ∧ t = s.bumpUpc) := by
  unfold execChk at h
  split at h
  · rename_i p u v he
    cases h; exact .inl ⟨p, u, v, he, rfl⟩
  · rename_i he
    exact .inr ⟨he, State.advance_next h⟩

theorem execEnd_next (h : execEnd s = .next t) : t = s.finish := by cases h; rfl

theorem execLdc_next {i : Idx} {k : Fin 4} (h : execLdc i k s = .next t) :
    s.upc ≠ 127#7 ∧ t = (s.writeX i (constWord k)).bumpUpc := State.advance_next h

theorem execUnpk_next {i : Idx} {src : Source} {wo : Fin 8} (h : execUnpk i src wo s = .next t) :
    sliceInBuffer src wo = true ∧ s.upc ≠ 127#7 ∧
      t = (s.writeX i (s.readWordLE (sliceAddr src wo))).bumpUpc := by
  unfold execUnpk at h
  split at h
  · exact ⟨‹_›, State.advance_next h⟩
  · cases h

theorem execPack_next {i : Idx} {wo : Fin 8} (h : execPack i wo s = .next t) :
    s.upc ≠ 127#7 ∧ t = (s.writeWordLE (outAddr wo) (s.readX i)).bumpUpc := State.advance_next h

theorem execQr_next {a b c d : Idx} (h : execQr a b c d s = .next t) :
    pairwiseDistinct a b c d = true ∧ s.qrCount ≠ 127#7 ∧ s.upc ≠ 127#7 ∧
      t = (s.writeQuad a b c d (qrf (s.readQuad a b c d))).countQr.bumpUpc := by
  unfold execQr at h
  split at h
  · split at h
    · cases h
    · exact ⟨‹_›, ‹_›, State.advance_next h⟩
  · cases h

/-- The length check passes exactly when the three lengths are right (R72). -/
theorem State.lengthError_none : s.lengthError = none ↔ s.outLen = 32#32 ∧ s.keyLen = 32#32 ∧ s.nonceLen = 16#32 := by
  unfold State.lengthError
  split
  · simp_all
  · split
    · simp_all
    · split <;> simp_all

/-- The record a failing length check names is one R17 allows, and it names a parameter. -/
theorem State.lengthError_legal {p : ErrParam} {u v : Word} (h : s.lengthError = some (p, u, v)) :
    p ≠ .none ∧ errorRecordLegal p u v := by
  unfold State.lengthError at h
  split at h
  · cases h; simp_all [errorRecordLegal]
  · split at h
    · cases h; simp_all [errorRecordLegal]
    · split at h
      · cases h; simp_all [errorRecordLegal]
      · cases h

end Sys2Proof.Machine
end

