-- ==== Sys2Proof/Laws/Step.lean ====
section
/-! SUPPORT. What a step can do: one inversion lemma per layer (the host port, the sequencer, an event, a step). -/

namespace Sys2Proof.Machine

variable {s t : State}

/-- A write while idle does what it does; while busy it changes nothing (R38). -/
theorem whenIdle_next {e : Result} (h : whenIdle s e = .next t) : t = s ∨ (s.busy = false ∧ e = .next t) := by
  unfold whenIdle at h
  split at h
  · cases h; exact .inl rfl
  · exact .inr ⟨by simpa using ‹¬s.busy = true›, h⟩

/-- All that a host write of a register can do when it answers a next state. -/
theorem writeReg_next {r : HostReg} {w : Word} (hi : s.busy = false) (h : writeReg r w s = .next t) :
    t = s ∨ (r = .ctrl ∧ w.getLsbD 0 = true ∧ t = s.start) ∨ (r = .outLen ∧ t = s.setOutLen w) ∨
      (r = .keyLen ∧ t = s.setKeyLen w) ∨ (r = .nonceLen ∧ t = s.setNonceLen w) := by
  cases r with
  | ctrl =>
    simp only [writeReg, writeCtrl, decodeCommand] at h
    by_cases hw : w.getLsbD 0 = true
    · rw [if_pos hw] at h
      rcases execDeriveKey_next h with ⟨hb, _⟩ | ⟨_, rfl⟩
      · rw [hb] at hi; cases hi
      · exact .inr (.inl ⟨rfl, hw, rfl⟩)
    · rw [if_neg hw] at h
      cases h; exact .inl rfl
  | outLen => cases h; exact .inr (.inr (.inl ⟨rfl, rfl⟩))
  | keyLen => cases h; exact .inr (.inr (.inr (.inl ⟨rfl, rfl⟩)))
  | nonceLen => cases h; exact .inr (.inr (.inr (.inr ⟨rfl, rfl⟩)))
  | status | errParam | errActual | errExpected | outputSize | keySize | nonceSize | upc | qrCount | x =>
    cases h; exact .inl rfl

/-- All that a host access can do when it answers a next state: answer a read; nothing; or, while idle, start a
command, write a length register, or write a buffer byte. -/
theorem hostAccess_next {a : HostAccess} (h : hostAccess a s = .next t) :
    (a.isWrite = false ∧ ∃ v, t = s.answer v) ∨ (a.isWrite = true ∧ t = s) ∨
    (s.busy = false ∧
      ((∃ off w, a = .write32 off w ∧ regAt off = some .ctrl ∧ w.getLsbD 0 = true ∧ t = s.start) ∨
       (∃ off w, a = .write32 off w ∧ regAt off = some .outLen ∧ t = s.setOutLen w) ∨
       (∃ off w, a = .write32 off w ∧ regAt off = some .keyLen ∧ t = s.setKeyLen w) ∨
       (∃ off w, a = .write32 off w ∧ regAt off = some .nonceLen ∧ t = s.setNonceLen w) ∨
       ∃ off b, a = .write8 off b ∧ isBufferAddr off = true ∧ t = s.writeByte off b)) := by
  cases a with
  | read8 off =>
    simp only [hostAccess] at h
    split at h
    · cases h; exact .inl ⟨rfl, _, rfl⟩
    · cases h
  | read16 off => cases h
  | read32 off =>
    simp only [hostAccess] at h
    split at h
    · cases h; exact .inl ⟨rfl, _, rfl⟩
    · cases h
  | write8 off b =>
    simp only [hostAccess] at h
    split at h
    · rcases whenIdle_next h with rfl | ⟨hi, he⟩
      · exact .inr (.inl ⟨rfl, rfl⟩)
      · cases he; exact .inr (.inr ⟨hi, .inr (.inr (.inr (.inr ⟨off, b, rfl, ‹_›, rfl⟩)))⟩)
    · cases h
  | write16 off v => cases h
  | write32 off w =>
    simp only [hostAccess] at h
    split at h
    · rename_i r hr
      rcases whenIdle_next h with rfl | ⟨hi, he⟩
      · exact .inr (.inl ⟨rfl, rfl⟩)
      · rcases writeReg_next hi he with rfl | ⟨rfl, hw, rfl⟩ | ⟨rfl, rfl⟩ | ⟨rfl, rfl⟩ | ⟨rfl, rfl⟩
        · exact .inr (.inl ⟨rfl, rfl⟩)
        · exact .inr (.inr ⟨hi, .inl ⟨off, w, rfl, hr, hw, rfl⟩⟩)
        · exact .inr (.inr ⟨hi, .inr (.inl ⟨off, w, rfl, hr, rfl⟩)⟩)
        · exact .inr (.inr ⟨hi, .inr (.inr (.inl ⟨off, w, rfl, hr, rfl⟩))⟩)
        · exact .inr (.inr ⟨hi, .inr (.inr (.inr (.inl ⟨off, w, rfl, hr, rfl⟩)))⟩)
    · cases h

/-- All that the sequencer's step can do when it answers a next state. -/
theorem sequencerStep_next (h : sequencerStep s = .next t) :
    (s.busy = false ∧ t = s) ∨
    (s.busy = true ∧ ∃ u i, s.fetch = some u ∧ decodeUop u = .ok i ∧ exec i s = .next t) := by
  unfold sequencerStep at h
  split at h
  · rename_i hb
    split at h
    · rename_i u hu
      unfold runWord at h
      split at h
      · rename_i i hi
        exact .inr ⟨hb, u, i, hu, hi, h⟩
      · cases h
    · cases h
  · cases h; exact .inl ⟨by simpa using ‹¬s.busy = true›, rfl⟩

theorem sequencerStep_idle (h : s.busy = false) : sequencerStep s = .next s := by
  unfold sequencerStep; rw [h]; rfl

theorem sequencerStep_busy {u : Word} (hb : s.busy = true) (hu : s.fetch = some u) :
    sequencerStep s = runWord u s := by
  unfold sequencerStep; rw [hb, hu]; rfl

theorem runWord_ok {u : Word} {i : Instr} (h : decodeUop u = .ok i) : runWord u s = exec i s := by
  unfold runWord; rw [h]

@[simp] theorem event_host (a : HostAccess) (s : State) : event (.host a) s = hostAccess a s := rfl
@[simp] theorem event_sequencer (s : State) : event .sequencer s = sequencerStep s := rfl
@[simp] theorem event_reset (s : State) : event .reset s = .next s.resetEvent := rfl

theorem step_no_inputs (h : s.inputs = []) : step s = sequencerStep s := by unfold step; rw [h]

theorem step_cons {e : Event} {rest : List Event} (h : s.inputs = e :: rest) :
    step s = event e (s.withInputs rest) := by unfold step; rw [h]

/-- All that a step can do: the sequencer's step, or one pending event. -/
theorem step_next (h : step s = .next t) :
    (s.inputs = [] ∧ sequencerStep s = .next t) ∨
    ∃ e rest, s.inputs = e :: rest ∧ event e (s.withInputs rest) = .next t := by
  unfold step at h
  split at h
  · exact .inl ⟨‹_›, h⟩
  · rename_i e rest he
    exact .inr ⟨e, rest, he, h⟩

/-- A decoded micro-operation is one, and it is well-formed. -/
theorem decodeUop_ok {u : Word} {i : Instr} (h : decodeUop u = .ok i) : i.isUop = true ∧ i.wellFormed = true := by
  unfold decodeUop decodeUnpk decodeQr at h
  repeat' (split at h)
  all_goals first
    | (cases h; exact ⟨rfl, rfl⟩)
    | (cases h; exact ⟨rfl, ‹_›⟩)
    | cases h

theorem runSteps_succ (n : Nat) (s : State) : runSteps (n + 1) s =
    match step s with
    | .next t => runSteps n t
    | .fault f => .fault f
    | .refused r => .refused r := rfl

theorem runSteps_succ_of_next {n : Nat} (h : step s = .next t) : runSteps (n + 1) s = runSteps n t := by
  rw [runSteps, h]

/-- Running `m + n` steps is running `m` and then `n`. -/
theorem runSteps_add {m n : Nat} (h : runSteps m s = .next t) : runSteps (m + n) s = runSteps n t := by
  induction m generalizing s with
  | zero => cases h; rw [Nat.zero_add]
  | succ m ih =>
    rw [Nat.add_right_comm, runSteps]
    rw [runSteps] at h
    cases hs : step s with
    | next r => rw [hs] at h; exact ih h
    | fault f => cases f
    | refused r => rw [hs] at h; cases h

/-- The machine's own run is the host's. -/
theorem runSteps_eq_run (n : Nat) (s : Sys2Proof.core.State) : Host.Core.run Sys2Proof.core n s = runSteps n s := by
  induction n generalizing s with
  | zero => rfl
  | succ n ih =>
    refine Eq.trans ?_ (runSteps_succ n s).symm
    rw [Host.Core.run]
    have hs : Sys2Proof.core.step s = step s := rfl
    rw [hs]
    cases step s with
    | next t => exact ih t
    | fault f => exact nomatch f
    | refused r => rfl

end Sys2Proof.Machine
end

