-- ==== Sys2Proof/Laws/HostMap.lean ====
section
/-! SUPPORT. The host map (`10_state.md` R22): which offsets hold a register, and which registers a write reaches. -/

namespace Sys2Proof.Machine

/-- A register answers at exactly the offsets R37 allows a 32-bit access to. -/
theorem regAt_isSome (off : Nat) :
    (regAt off).isSome = true ↔ off % 4 = 0 ∧ (off ≤ 0x33 ∨ 0x40 ≤ off ∧ off ≤ 0x7F) := by
  by_cases h : off < 128
  · have low : ∀ o : Fin 128, (regAt o.val).isSome =
        decide (o.val % 4 = 0 ∧ (o.val ≤ 0x33 ∨ 0x40 ≤ o.val ∧ o.val ≤ 0x7F)) := by decide
    rw [low ⟨off, h⟩, decide_eq_true_eq]
  · have hn : controlMap.lookup off = none := by
      rw [List.lookup_eq_none_iff]
      intro p hp
      have : ∀ q ∈ controlMap, q.1 < 128 := by decide
      have hlt := this p hp
      have hne : off ≠ p.1 := by omega
      simp [hne]
    unfold regAt
    rw [if_neg (by omega), hn]
    simp only [Option.isSome_none, Bool.false_eq_true, false_iff]
    omega

/-- The register at an offset below the end of the `X` window. -/
theorem regAt_lt {off : Nat} {r : HostReg} (h : regAt off = some r) : off < 128 := by
  have := (regAt_isSome off).1 (by rw [h]; rfl)
  omega

/-- `CTRL` is at offset 0 only. -/
theorem regAt_ctrl {off : Nat} (h : regAt off = some .ctrl) : off = 0 := by
  have low : ∀ o : Fin 128, regAt o.val = some .ctrl → o.val = 0 := by decide
  exact low ⟨off, regAt_lt h⟩ h

/-- Each length register is at one offset only. -/
theorem regAt_outLen {off : Nat} (h : regAt off = some .outLen) : off = 0x08 := by
  have low : ∀ o : Fin 128, regAt o.val = some .outLen → o.val = 0x08 := by decide
  exact low ⟨off, regAt_lt h⟩ h

theorem regAt_keyLen {off : Nat} (h : regAt off = some .keyLen) : off = 0x0C := by
  have low : ∀ o : Fin 128, regAt o.val = some .keyLen → o.val = 0x0C := by decide
  exact low ⟨off, regAt_lt h⟩ h

theorem regAt_nonceLen {off : Nat} (h : regAt off = some .nonceLen) : off = 0x10 := by
  have low : ∀ o : Fin 128, regAt o.val = some .nonceLen → o.val = 0x10 := by decide
  exact low ⟨off, regAt_lt h⟩ h

/-- `X[i]` is at offset `0x40 + 4i`. -/
theorem regAt_x (i : Idx) : regAt (0x40 + 4 * i.val) = some (.x i) := by revert i; decide

/-- The offsets of the read-only registers and of the test window hold no writable register. -/
theorem regAt_readOnly {off : Nat} (h4 : off % 4 = 0)
    (h : off = 0x04 ∨ 0x14 ≤ off ∧ off ≤ 0x30 ∨ 0x40 ≤ off ∧ off ≤ 0x7C) :
    ∃ r, regAt off = some r ∧ r ≠ .ctrl ∧ r ≠ .outLen ∧ r ≠ .keyLen ∧ r ≠ .nonceLen := by
  have low : ∀ o : Fin 128, o.val % 4 = 0 →
      (o.val = 0x04 ∨ 0x14 ≤ o.val ∧ o.val ≤ 0x30 ∨ 0x40 ≤ o.val ∧ o.val ≤ 0x7C) →
      (regAt o.val).any (fun r => decide (r ≠ .ctrl ∧ r ≠ .outLen ∧ r ≠ .keyLen ∧ r ≠ .nonceLen)) = true := by decide
  have hr := low ⟨off, by omega⟩ h4 h
  rw [Option.any_eq_true] at hr
  obtain ⟨r, hr, hd⟩ := hr
  exact ⟨r, hr, of_decide_eq_true hd⟩

/-- A write of any other register than `CTRL` and the lengths is ignored (R39). -/
theorem writeReg_readOnly {r : HostReg} (w : Word) (s : State) (h1 : r ≠ .ctrl) (h2 : r ≠ .outLen)
    (h3 : r ≠ .keyLen) (h4 : r ≠ .nonceLen) : writeReg r w s = .next s := by
  cases r <;> first | rfl | contradiction

/-- The bytes the host may access are those of the buffers. -/
theorem isBufferAddr_iff (a : Nat) : isBufferAddr a = true ↔ 0x80 ≤ a ∧ a ≤ 0xAF ∨ 0xC0 ≤ a ∧ a ≤ 0xDF := by
  unfold isBufferAddr
  rw [decide_eq_true_eq]
  omega

end Sys2Proof.Machine
end

