-- ==== Sys2Proof/Laws/Urom.lean ====
section
/-! SUPPORT. The 106 words of `UROM`, decoded (`30_encoding.md` R60). -/

namespace Sys2Proof.Machine

/-- The micro-operations of `INIT` (R63). -/
def initOps : List Instr :=
  [.ldc 0 0, .ldc 1 1, .ldc 2 2, .ldc 3 3,
   .unpk 4 .key 0, .unpk 5 .key 1, .unpk 6 .key 2, .unpk 7 .key 3,
   .unpk 8 .key 4, .unpk 9 .key 5, .unpk 10 .key 6, .unpk 11 .key 7,
   .unpk 12 .nonce 0, .unpk 13 .nonce 1, .unpk 14 .nonce 2, .unpk 15 .nonce 3]

/-- The micro-operations of `DROUND` (R63). -/
def doubleRoundOps : List Instr :=
  [.qr 0 4 8 12, .qr 1 5 9 13, .qr 2 6 10 14, .qr 3 7 11 15,
   .qr 0 5 10 15, .qr 1 6 11 12, .qr 2 7 8 13, .qr 3 4 9 14]

/-- The micro-operations of `EXTRACT` (R63). -/
def extractOps : List Instr :=
  [.pack 0 0, .pack 1 1, .pack 2 2, .pack 3 3, .pack 12 4, .pack 13 5, .pack 14 6, .pack 15 7]

/-- The micro-operation at an index of `UROM`. -/
def uromOp (n : Nat) : Instr :=
  if n = 0 then .chk
  else if n < 17 then initOps.getD (n - 1) .chk
  else if n < 97 then doubleRoundOps.getD ((n - 17) % 8) .chk
  else if n < 105 then extractOps.getD (n - 97) .chk
  else .endOp

/-- Every word of `UROM` decodes to the micro-operation the table lists beside it. -/
theorem urom_decodes : ∀ n : Fin 106, (urom[n.val]?).map decodeUop = some (.ok (uromOp n.val)) := by decide

theorem urom_fetch {s : State} (hp : s.prog = urom) (hu : s.upc.toNat ≤ 105) :
    ∃ u, s.fetch = some u ∧ decodeUop u = .ok (uromOp s.upc.toNat) := by
  have h := urom_decodes ⟨s.upc.toNat, by omega⟩
  unfold State.fetch
  rw [hp]
  cases hw : urom[s.upc.toNat]? with
  | none => rw [hw] at h; cases h
  | some u =>
    rw [hw] at h
    exact ⟨u, rfl, by simpa using h⟩

/-- In the hardware the sequencer runs the micro-operation of `UROM` at `UPC`. -/
theorem sequencerStep_urom {s : State} (hb : s.busy = true) (hp : s.prog = urom) (hu : s.upc.toNat ≤ 105) :
    sequencerStep s = exec (uromOp s.upc.toNat) s := by
  obtain ⟨u, hf, hd⟩ := urom_fetch hp hu
  rw [sequencerStep_busy hb hf, runWord_ok hd]

end Sys2Proof.Machine
end

