-- ==== Sys2Proof/Laws/Run.lean ====
section
/-! SUPPORT. One step of the hardware while a command runs, one equation per micro-operation of `UROM`, and what the
command level writes. -/

namespace Sys2Proof.Machine

variable {s : State}

/-- A command runs in the hardware and no event is pending. -/
structure Running (s : State) : Prop where
  busy : s.busy = true
  inputs : s.inputs = []
  prog : s.prog = urom

/-- The step of a running command at a known `UPC`. -/
theorem Running.step_eq (h : Running s) {n : Nat} (hn : n ≤ 105) (hu : s.upc = BitVec.ofNat 7 n) :
    step s = exec (uromOp n) s := by
  have e : s.upc.toNat = n := by rw [hu]; simp; omega
  rw [step_no_inputs h.inputs, sequencerStep_urom h.busy h.prog (by omega), e]

theorem upc_ne_last {n : Nat} (hn : n ≤ 105) (hu : s.upc = BitVec.ofNat 7 n) : s.upc ≠ 127#7 := by
  intro h
  rw [hu] at h
  have := congrArg BitVec.toNat h
  simp at this
  omega

theorem ofNat_succ (n : Nat) : BitVec.ofNat 7 n + 1#7 = BitVec.ofNat 7 (n + 1) := by
  apply BitVec.eq_of_toNat_eq; simp

theorem Running.step_chk (h : Running s) (hu : s.upc = 0#7) (hl : s.lengthError = none) :
    step s = .next { s with upc := 1#7 } := by
  rw [h.step_eq (n := 0) (by omega) hu]
  show execChk s = _
  unfold execChk
  rw [hl]
  show s.advance = _
  rw [State.advance_of_ne (upc_ne_last (n := 0) (by omega) hu)]
  show Host.Outcome.next { s with upc := s.upc + 1#7 } = _
  rw [hu]; rfl

theorem Running.step_ldc (h : Running s) {n : Nat} (hn : n ≤ 105) (hu : s.upc = BitVec.ofNat 7 n) {i : Idx}
    {k : Fin 4} (e : uromOp n = .ldc i k) :
    step s = .next { s with x := s.x.set i (constWord k), upc := BitVec.ofNat 7 (n + 1) } := by
  rw [h.step_eq hn hu, e, ← ofNat_succ n, ← hu]
  exact State.advance_of_ne (s := s.writeX _ _) (upc_ne_last hn hu)

theorem Running.step_unpk (h : Running s) {n : Nat} (hn : n ≤ 105) (hu : s.upc = BitVec.ofNat 7 n) {i : Idx}
    {src : Source} {wo : Fin 8} (e : uromOp n = .unpk i src wo) (hs : sliceInBuffer src wo = true) :
    step s = .next { s with
      x := s.x.set i (s.readWordLE (sliceAddr src wo)), upc := BitVec.ofNat 7 (n + 1) } := by
  rw [h.step_eq hn hu, e, ← ofNat_succ n, ← hu]
  show execUnpk _ _ _ _ = _
  unfold execUnpk
  rw [if_pos hs]
  exact State.advance_of_ne (s := s.writeX _ _) (upc_ne_last hn hu)

theorem Running.step_qr (h : Running s) {n : Nat} (hn : n ≤ 105) (hu : s.upc = BitVec.ofNat 7 n) {a b c d : Idx}
    (e : uromOp n = .qr a b c d) (hd : pairwiseDistinct a b c d = true) {q : Nat} (hq : q ≤ 80)
    (hc : s.qrCount = BitVec.ofNat 7 q) :
    step s = .next { s with
      x := quarterRoundOver s.x (a, b, c, d), qrCount := BitVec.ofNat 7 (q + 1), upc := BitVec.ofNat 7 (n + 1) } := by
  have hq' : s.qrCount ≠ 127#7 := by
    intro h
    rw [hc] at h
    have := congrArg BitVec.toNat h
    simp at this
    omega
  rw [h.step_eq hn hu, e, ← ofNat_succ n, ← ofNat_succ q, ← hu, ← hc]
  show execQr _ _ _ _ _ = _
  unfold execQr
  rw [if_pos hd, if_neg hq']
  exact State.advance_of_ne (s := (s.writeQuad a b c d (qrf (s.readQuad a b c d))).countQr) (upc_ne_last hn hu)

theorem Running.step_pack (h : Running s) {n : Nat} (hn : n ≤ 105) (hu : s.upc = BitVec.ofNat 7 n) {i : Idx}
    {wo : Fin 8} (e : uromOp n = .pack i wo) :
    step s = .next { s with
      mem := (s.writeWordLE (outAddr wo) s.x[i]).mem, upc := BitVec.ofNat 7 (n + 1) } := by
  rw [h.step_eq hn hu, e, ← ofNat_succ n, ← hu]
  exact State.advance_of_ne (s := s.writeWordLE _ _) (upc_ne_last hn hu)

theorem Running.step_end (h : Running s) (hu : s.upc = 105#7) : step s = .next s.finish := by
  rw [h.step_eq (n := 105) (by omega) hu]; rfl

/-- An idle core with no pending event stays as it is, however many steps are asked for. -/
theorem runSteps_idle (hb : s.busy = false) (hi : s.inputs = []) (n : Nat) : runSteps n s = .next s := by
  have hs : step s = .next s := by rw [step_no_inputs hi, sequencerStep_idle hb]
  induction n with
  | zero => rfl
  | succ n ih => rw [runSteps_succ_of_next hs, ih]

/-- The step in which the host's `START` is accepted. -/
theorem step_start {w : Word} (hb : s.busy = false) (hw : w.getLsbD 0 = true)
    (hi : s.inputs = [.host (.write32 0x00 w)]) : step s = .next (s.withInputs []).start := by
  rw [step_cons hi, event_host]
  show whenIdle _ (writeCtrl w _) = _
  unfold whenIdle writeCtrl decodeCommand
  rw [if_pos hw]
  simp [hb, exec, execDeriveKey]

/-- The slice `UNPK` reads, as a word of the buffer's contents. -/
theorem State.readWordLE_key (s : State) (j : Nat) (h : 4 * j + 3 < 32) :
    s.readWordLE (0x80 + 4 * j) = sliceWord s.key j h := by
  simp [sliceWord, State.key, State.readWordLE, keyBase, Nat.add_assoc]

theorem State.readWordLE_nonce (s : State) (j : Nat) (h : 4 * j + 3 < 16) :
    s.readWordLE (0xA0 + 4 * j) = sliceWord s.nonce j h := by
  simp [sliceWord, State.nonce, State.readWordLE, nonceBase, Nat.add_assoc]

/-! ### The command level's write of `OUT` -/

/-- What writing some of the bytes of `OUT` does: nothing but the memory changes, and of it those bytes. -/
theorem writeOut_fold (o : Vector Byte 32) (l : List (Fin 32)) (s : State) :
    let t := l.foldl (fun t k => t.writeByte (outBase + k.val) o[k]) s
    t = { s with mem := t.mem } ∧
    ∀ a, t.readByte a =
      if h : ∃ k ∈ l, a = outBase + k.val then o[a - outBase]'(by obtain ⟨k, _, rfl⟩ := h; omega)
      else s.readByte a := by
  induction l generalizing s with
  | nil => exact ⟨rfl, fun a => by simp⟩
  | cons k l ih =>
    simp only [List.foldl_cons]
    obtain ⟨h1, h2⟩ := ih (s.writeByte (outBase + k.val) o[k])
    refine ⟨by rw [h1]; rfl, fun a => ?_⟩
    rw [h2 a]
    by_cases h : ∃ k ∈ l, a = outBase + k.val
    · rw [dif_pos h, dif_pos (by obtain ⟨k, hk, e⟩ := h; exact ⟨k, List.mem_cons_of_mem _ hk, e⟩)]
    · rw [dif_neg h, State.readByte_writeByte]
      by_cases h' : a = outBase + k.val
      · rw [if_pos h', dif_pos ⟨k, List.mem_cons_self, h'⟩]; subst h'; simp
      · rw [if_neg h', dif_neg]
        rintro ⟨j, hj, e⟩
        rcases List.mem_cons.1 hj with rfl | hj
        · exact h' e
        · exact h ⟨j, hj, e⟩

theorem State.writeOut_eq (s : State) (o : Vector Byte 32) : s.writeOut o = { s with mem := (s.writeOut o).mem } :=
  (writeOut_fold o _ s).1

theorem State.readByte_writeOut (s : State) (o : Vector Byte 32) (a : Nat) :
    (s.writeOut o).readByte a = if h : 0xC0 ≤ a ∧ a < 0xE0 then o[a - 0xC0]'(by omega) else s.readByte a := by
  refine ((writeOut_fold o _ s).2 a).trans ?_
  by_cases h : 0xC0 ≤ a ∧ a < 0xE0
  · rw [dif_pos h, dif_pos ⟨⟨a - 0xC0, by omega⟩, List.mem_finRange _, by simp [outBase]; omega⟩]; rfl
  · rw [dif_neg h, dif_neg]
    rintro ⟨k, _, e⟩
    simp [outBase] at e
    omega

theorem State.out_writeOut (s : State) (o : Vector Byte 32) : (s.writeOut o).out = o := by
  apply Vector.ext
  intro i hi
  simp only [State.out, Vector.getElem_ofFn, State.readByte_writeOut, outBase]
  rw [dif_pos (by omega)]
  simp only [Nat.add_sub_cancel_left]

/-- The fields of the success transition, with the derived key and the mixed state as variables: the two are never
computed here. -/
theorem State.succeeded_fields (s : State) (o : Vector Byte 32) (x : Vector Word 16) (t : State)
    (ht : t = { (s.start.writeOut o).finish with x := x, upc := 105#7, qrCount := 80#7 }) :
    t.out = o ∧ t.busy = false ∧ t.done = true ∧ t.error = false ∧ t.errParam = .none ∧ t.errActual = 0#32 ∧
      t.errExpected = 0#32 ∧ t.qrCount = 80#7 ∧ t.upc = 105#7 ∧ t.x = x ∧ t.inputs = s.inputs ∧
      t.outLen = s.outLen ∧ t.keyLen = s.keyLen ∧ t.nonceLen = s.nonceLen ∧
      ∀ a, a < 0xC0 → t.readByte a = s.readByte a := by
  subst ht
  have hrest := s.start.writeOut_eq o
  have hb := s.start.readByte_writeOut o
  have ho := s.start.out_writeOut o
  generalize s.start.writeOut o = u at *
  refine ⟨ho, rfl, rfl, ?_, ?_, ?_, ?_, rfl, rfl, rfl, ?_, ?_, ?_, ?_, fun a ha => ?_⟩
  · show u.error = _; rw [hrest]; rfl
  · show u.errParam = _; rw [hrest]; rfl
  · show u.errActual = _; rw [hrest]; rfl
  · show u.errExpected = _; rw [hrest]; rfl
  · show u.inputs = _; rw [hrest]; rfl
  · show u.outLen = _; rw [hrest]; rfl
  · show u.keyLen = _; rw [hrest]; rfl
  · show u.nonceLen = _; rw [hrest]; rfl
  · show u.readByte a = _
    rw [hb, dif_neg (by omega)]; rfl

end Sys2Proof.Machine
end

