-- ==== Sys2Proof/Tests/Slice0.lean ====
section
/-! SUPPORT. The model's own tests. Every expected value is one the spec prints (`95_test_vectors.md`: V-…) or one
written out by hand from an encoding of `30_encoding.md`; after them, a witness for the hypotheses of every
obligation that has any. -/

namespace Sys2Proof.Tests

open Sys2Proof.Machine

/-! ### Ill-formed terms and words -/

theorem test_wf_refuses_unpk_nonce_4 : (Instr.unpk 0 .nonce 4).wellFormed = false := by decide
theorem test_wf_refuses_unpk_nonce_7 : (Instr.unpk 15 .nonce 7).wellFormed = false := by decide
theorem test_wf_refuses_qr_ab : (Instr.qr 0 0 1 2).wellFormed = false := by decide
theorem test_wf_refuses_qr_ac : (Instr.qr 1 0 1 2).wellFormed = false := by decide
theorem test_wf_refuses_qr_ad : (Instr.qr 1 2 3 1).wellFormed = false := by decide
theorem test_wf_refuses_qr_bc : (Instr.qr 0 5 5 2).wellFormed = false := by decide
theorem test_wf_refuses_qr_bd : (Instr.qr 0 5 1 5).wellFormed = false := by decide
theorem test_wf_refuses_qr_cd : (Instr.qr 0 1 15 15).wellFormed = false := by decide
theorem test_wf_accepts : (Instr.unpk 15 .nonce 3).wellFormed ∧ (Instr.qr 15 14 13 12).wellFormed := by decide

/-! ### Decoding: V-ENC-1 to V-ENC-29, and format H -/

/-- V-ENC-1 to V-ENC-12, the words bit by bit: opcode in 31:28, then the operand fields of R53 to R57. -/
theorem test_decode_chk : decodeUop 0b0001_000000000000_0000_0000_0000_0000#32 = .ok .chk := by decide
theorem test_decode_ldc : decodeUop 0b0010_000000000000_0011_0000000000_11#32 = .ok (.ldc 3 3) := by decide
theorem test_decode_ldc_15 : decodeUop 0b0010_000000000000_1111_0000000000_00#32 = .ok (.ldc 15 0) := by decide
theorem test_decode_unpk_key : decodeUop 0b0011_000000000000_1011_000_0_00000_111#32 = .ok (.unpk 11 .key 7) := by
  decide
theorem test_decode_unpk_nonce : decodeUop 0b0011_000000000000_1111_000_1_00000_011#32 = .ok (.unpk 15 .nonce 3) := by
  decide
theorem test_decode_qr : decodeUop 0b0100_000000000000_0000_0100_1000_1100#32 = .ok (.qr 0 4 8 12) := by decide
theorem test_decode_qr_diag : decodeUop 0b0100_000000000000_0011_0100_1001_1110#32 = .ok (.qr 3 4 9 14) := by decide
theorem test_decode_pack : decodeUop 0b0101_000000000000_1100_000000000_100#32 = .ok (.pack 12 4) := by decide
theorem test_decode_end : decodeUop 0b0110_000000000000_0000_0000_0000_0000#32 = .ok .endOp := by decide
theorem test_decode_command : decodeCommand 0x00000001#32 = .ok .deriveKey ∧
    decodeCommand 0xFFFFFFFF#32 = .ok .deriveKey ∧ decodeCommand 0xFFFFFFFE#32 = .invalid .startClear := by decide

theorem test_decode_reserved_opcodes : [0x00000000#32, 0x70000000#32, 0xF0000000#32].map decodeUop =
    List.replicate 3 (.invalid .reservedOpcode) := by decide

/-- V-ENC-16 to V-ENC-20, V-ENC-22, V-ENC-23, V-ENC-27 to V-ENC-29. -/
theorem test_decode_unnamed_bits : [0x10000001#32, 0x60001000#32, 0x20000004#32, 0x20000100#32, 0x20010000#32,
    0x30000008#32, 0x30000200#32, 0x4100048C#32, 0x50000008#32, 0x50000010#32].map decodeUop =
    List.replicate 10 (.invalid .unnamedBit) := by decide

theorem test_decode_reserved_forms : decodeUop 0x30000104#32 = .invalid .nonceOffset ∧
    [0x40000012#32, 0x40001231#32, 0x40005555#32].map decodeUop = List.replicate 3 (.invalid .equalIndices) := by
  decide

/-! ### The table word and the fetch of the host's probes -/

theorem test_table_word : decodeTableWord 32 0x1 = some .deriveKey ∧ decodeTableWord 32 0x3000F103 =
    some (.unpk 15 .nonce 3) ∧ decodeTableWord 32 0x30000104 = none ∧ decodeTableWord 32 0 = none := by decide

/-- The states in which the step fetches one given micro-operation. -/
theorem test_fetch_word : step (State.reset.withFetchWord 32 0x20009002) =
    exec (.ldc 9 2) (State.reset.withFetchWord 32 0x20009002) := rfl

theorem test_fetch_command : step (State.reset.withFetchWord 32 1) = .next State.reset.start := rfl

/-! ### States of the tests -/

/-- `KEY = 00 01 .. 1f`, `NONCE = 00 01 .. 0f`, `OUT = aa` x 32. -/
def tMem : List Host.Cell :=
  (List.range 32).map (fun k => (0x80 + k, BitVec.ofNat 8 k)) ++
  (List.range 16).map (fun k => (0xA0 + k, BitVec.ofNat 8 k)) ++
  (List.range 32).map (fun k => (0xC0 + k, 0xaa#8))

/-- Idle, with the right lengths. -/
def tIdle : State where
  x := Vector.replicate 16 0x423b4182#32
  mem := tMem
  outLen := 32#32
  keyLen := 32#32
  nonceLen := 16#32
  busy := false
  done := false
  error := false
  errParam := .none
  errActual := 0#32
  errExpected := 0#32
  upc := 0#7
  qrCount := 0#7
  prog := urom
  inputs := []
  readData := Option.none
  resetDraws := 0

/-- A command running, at a given `UPC`, with the count `UROM` has there. -/
def tBusy (n : Nat) : State :=
  { tIdle with busy := true, upc := BitVec.ofNat 7 n, qrCount := BitVec.ofNat 7 (qrsBefore n) }

/-- An idle core about to be started by the host. -/
def tStart : State := { tIdle with inputs := [.host (.write32 0x00 1#32)] }

/-- What holds of the next state, if there is one. -/
def holds (r : Result) (p : State → Bool) : Bool :=
  match r with
  | .next t => p t
  | .fault _ => false
  | .refused _ => false

/-! ### One instruction each -/

/-- V-CMD-1, V-CMD-3. -/
theorem test_derivekey_restarts : holds (exec .deriveKey { tIdle with done := true, upc := 105#7, qrCount := 80#7 })
    fun t => t.statusWord = 0x00000001#32 ∧ t.upc = 0#7 ∧ t.qrCount = 0#7 := by decide
theorem test_derivekey_busy_dropped : exec .deriveKey (tBusy 40) = .next (tBusy 40) := rfl

/-- V-CHK-10 (272 is no 16, though its low byte is), V-CHK-12 (the key is reported before the nonce). -/
theorem test_chk_whole_word : holds (exec .chk { tBusy 0 with nonceLen := 272#32 })
    fun t => t.statusWord = 0x00000004#32 ∧ t.errParam.code = 3#32 ∧ t.errActual = 272#32 ∧ t.errExpected = 16#32 ∧
      t.upc = 0#7 := by decide
theorem test_chk_order : holds (exec .chk { tBusy 0 with keyLen := 16#32, nonceLen := 32#32 })
    fun t => t.errParam.code = 2#32 ∧ t.errActual = 16#32 ∧ t.errExpected = 32#32 := by decide

/-- V-LDC-5. -/
theorem test_ldc : holds (exec (.ldc 9 2) (tBusy 1)) fun t => t.readX 9 = 0x79622d32#32 ∧ t.upc = 2#7 := by decide

/-- V-UNPK-2, V-UNPK-4. -/
theorem test_unpk_key : holds (exec (.unpk 11 .key 7) (tBusy 12)) fun t => t.readX 11 = 0x1f1e1d1c#32 := by decide
theorem test_unpk_nonce : holds (exec (.unpk 15 .nonce 3) (tBusy 16)) fun t => t.readX 15 = 0x0f0e0d0c#32 := by decide

/-- V-QR-1 at the scattered indices of P5. -/
theorem test_qr_scattered : holds (exec (.qr 5 9 2 14) { tBusy 17 with
      x := #v[0, 0, 0x9b8d6f43#32, 0, 0, 0x11111111#32, 0, 0, 0, 0x01020304#32, 0, 0, 0, 0, 0x01234567#32, 0] })
    fun t => t.readX 5 = 0xea2a92f4#32 ∧ t.readX 9 = 0xcb1cf8ce#32 ∧ t.readX 2 = 0x4581472e#32 ∧
      t.readX 14 = 0x5881c4bb#32 ∧ t.qrCount = 1#7 := by decide

/-- V-PACK-1 at another offset: the bytes and their neighbours. -/
theorem test_pack : holds (exec (.pack 0 4) (tBusy 101)) fun t =>
    [0xCF, 0xD0, 0xD1, 0xD2, 0xD3, 0xD4].map t.readByte = [0xaa#8, 0x82#8, 0x41#8, 0x3b#8, 0x42#8, 0xaa#8] := by decide

theorem test_end : holds (exec .endOp (tBusy 105)) fun t => t.statusWord = 0x00000002#32 ∧ t.upc = 105#7 := by decide

/-! ### The datapath and the function -/

/-- V-QR-3 (every addition wraps), V-QR-8. -/
theorem test_qrf_ones : qrf ⟨0xffffffff#32, 0xffffffff#32, 0xffffffff#32, 0xffffffff#32⟩ =
    ⟨0xf0000ffd#32, 0x88790878#32, 0x0110fdef#32, 0x010ffdf0#32⟩ := by decide
theorem test_qrf_wrap : qrf ⟨0xffffffff#32, 0x00000001#32, 0x80000000#32, 0x80000000#32⟩ =
    ⟨0x08001800#32, 0x4c4c0444#32, 0x80988008#32, 0x00980008#32⟩ := by decide

/-- The examples of R112. -/
theorem test_rotl : rotl32 0x80000001#32 12 (by decide) = 0x00001800#32 ∧
    rotl32 0x12345678#32 7 (by decide) = 0x1a2b3c09#32 := by decide

/-- V-LE-7, V-LE-11. -/
theorem test_le : le32 0xff#8 0x00#8 0x00#8 0x80#8 = 0x800000ff#32 ∧
    (List.range 4).map (byteOfWord 0x80000001#32) = [0x01#8, 0x00#8, 0x00#8, 0x80#8] := by decide

/-- The key of V-DK-1. -/
def tKey : Vector Byte 32 := Vector.ofFn fun k : Fin 32 => BitVec.ofNat 8 k.val

/-- The nonce of V-DK-1. -/
def tNonce : Vector Byte 16 :=
  #v[0x00#8, 0x00#8, 0x00#8, 0x09#8, 0x00#8, 0x00#8, 0x00#8, 0x4a#8,
     0x00#8, 0x00#8, 0x00#8, 0x00#8, 0x31#8, 0x41#8, 0x59#8, 0x27#8]

set_option maxRecDepth 100000 in
/-- V-DK-1, the one vector whose value is known from outside the spec too. -/
theorem test_hchacha20 : (hchacha20 tKey tNonce).toList =
    [0x82#8, 0x41#8, 0x3b#8, 0x42#8, 0x27#8, 0xb2#8, 0x7b#8, 0xfe#8, 0xd3#8, 0x0e#8, 0x42#8, 0x50#8, 0x8a#8, 0x87#8,
     0x7d#8, 0x73#8, 0xa0#8, 0xf9#8, 0xe4#8, 0xd5#8, 0x8a#8, 0x74#8, 0xa8#8, 0x53#8, 0xc1#8, 0x2e#8, 0xc4#8, 0x13#8,
     0x26#8, 0xd3#8, 0xec#8, 0xdc#8] := by decide

/-! ### The host's side -/

/-- V-CMD-6: a write while busy is lost. -/
theorem test_write_while_busy : hostAccess (.write8 0x80 0x55#8) (tBusy 40) = .next (tBusy 40) ∧
    hostAccess (.write32 0x0C 31#32) (tBusy 40) = .next (tBusy 40) := ⟨rfl, rfl⟩

/-- V-CMD-8, V-CMD-10. -/
theorem test_size_constants : tIdle.readReg .outputSize = 0x20#32 ∧ tIdle.readReg .keySize = 0x20#32 ∧
    tIdle.readReg .nonceSize = 0x10#32 ∧ hostAccess (.write32 0x24 7#32) tIdle = .next tIdle := ⟨rfl, rfl, rfl, rfl⟩

/-- A byte of a buffer is written in its place, and the memory stays in its canonical form. -/
theorem test_write_byte : holds (hostAccess (.write8 0xA0 0x77#8) tIdle) fun t =>
    t.readByte 0xA0 = 0x77#8 ∧ t.readByte 0x9F = 0x1f#8 ∧ t.readByte 0xA1 = 0x01#8 ∧ Memory.wf t.mem = true := by decide

/-! ### Witnesses: the hypotheses of every obligation can be met

Each theorem is named after its obligation; several clauses over one input have a witness each, at the edges of its
range. -/

/-- The state of a running command with one event pending. -/
def tEvent (n : Nat) (e : Event) : State := { tBusy n with inputs := [e] }

/-- An idle core with one event pending. -/
def tIdleEvent (e : Event) : State := { tIdle with inputs := [e] }

theorem wit_DecodeOfEncode : (Instr.qr 15 14 13 12).isUop = true ∧ (Instr.qr 15 14 13 12).wellFormed = true ∧
    (Instr.unpk 0 .nonce 3).isUop = true ∧ (Instr.unpk 0 .nonce 3).wellFormed = true ∧
    Instr.deriveKey.wellFormed = true := by decide

theorem wit_EncodeOfDecode : decodeUop 0x3000F103#32 = .ok (.unpk 15 .nonce 3) := by decide

theorem wit_ReservedWordsExactly : let s := { tBusy 0 with prog := [0x00000000#32] }
    s.busy = true ∧ s.prog[s.upc.toNat]? = some 0x00000000#32 ∧ decodeUop 0x00000000#32 = .invalid .reservedOpcode ∧
    0x60000000#32 ∈ urom := by decide

theorem wit_StepRunsTheDecodedInstruction :
    ((tBusy 105).busy = true ∧ (tBusy 105).prog[(tBusy 105).upc.toNat]? = some 0x60000000#32 ∧
      decodeUop 0x60000000#32 = .ok .endOp ∧ (tBusy 105).inputs = []) ∧
    ((tEvent 0 .sequencer).prog[(tEvent 0 .sequencer).upc.toNat]? = some 0x10000000#32 ∧
      (tEvent 0 .sequencer).inputs = .sequencer :: [] ∧ decodeUop 0x10000000#32 = .ok .chk) ∧
    (tStart.inputs = .host (.write32 0x00 1#32) :: [] ∧ decodeCommand 1#32 = .ok .deriveKey) := by decide

theorem wit_IdleSequencerHasNoStep : tIdle.busy = false ∧ tIdle.inputs = [] ∧
    (tIdleEvent .sequencer).busy = false ∧ (tIdleEvent .sequencer).inputs = .sequencer :: [] := by decide

theorem wit_RunningOffTheProgramIsRefused :
    ((tBusy 106).inputs = [] ∧ (tBusy 106).busy = true ∧ (tBusy 106).prog[(tBusy 106).upc.toNat]? = none) ∧
    ((tBusy 127).upc = 127#7 ∧ (tBusy 127).lengthError = none ∧ sliceInBuffer .nonce 3 = true ∧
      pairwiseDistinct 0 1 2 15 = true ∧ (tBusy 127).qrCount ≠ 127#7) := by decide

theorem wit_StartIsAcceptedWhileIdle : (tBusy 0).busy = true ∧ tIdle.busy = false ∧
    (0xFFFFFFFF#32).getLsbD 0 = true ∧
    (tIdleEvent (.host (.write32 0x00 0xFFFFFFFF#32))).inputs = .host (.write32 0x00 0xFFFFFFFF#32) :: [] := by decide

theorem wit_ChkComparesTheLengths :
    ({ tBusy 0 with outLen := 33#32 }.outLen ≠ 32#32) ∧
    ({ tBusy 0 with keyLen := 31#32 }.outLen = 32#32 ∧ { tBusy 0 with keyLen := 31#32 }.keyLen ≠ 32#32) ∧
    ({ tBusy 0 with nonceLen := 17#32 }.outLen = 32#32 ∧ { tBusy 0 with nonceLen := 17#32 }.keyLen = 32#32 ∧
      { tBusy 0 with nonceLen := 17#32 }.nonceLen ≠ 16#32) ∧
    ((tBusy 0).outLen = 32#32 ∧ (tBusy 0).keyLen = 32#32 ∧ (tBusy 0).nonceLen = 16#32 ∧ (tBusy 0).upc ≠ 127#7) := by
  decide

theorem wit_InvalidLengthStopsTheCommand :
    { tBusy 0 with nonceLen := 15#32 }.lengthError = some (.nonce, 15#32, 16#32) := by decide

theorem wit_LdcLoadsAConstant : (tBusy 126).upc ≠ 127#7 := by decide

theorem wit_UnpkReadsLittleEndian : (sliceInBuffer .key 7 = true ∧ sliceInBuffer .nonce 3 = true ∧
    (tBusy 126).upc ≠ 127#7) ∧ 4 ≤ (4 : Fin 8).val := by decide

theorem wit_QrAppliesTheQuarterRound :
    ((15 : Idx) ≠ 14 ∧ (15 : Idx) ≠ 13 ∧ (15 : Idx) ≠ 0 ∧ (14 : Idx) ≠ 13 ∧ (14 : Idx) ≠ 0 ∧ (13 : Idx) ≠ 0 ∧
      (tBusy 126).qrCount ≠ 127#7 ∧ (tBusy 126).upc ≠ 127#7) ∧
    { tBusy 126 with qrCount := 127#7 }.qrCount = 127#7 := by decide

theorem wit_PackWritesLittleEndian : (tBusy 126).upc ≠ 127#7 ∧
    0xDB < 0xC0 + 4 * (7 : Fin 8).val ∧ 0xC0 + 4 * (7 : Fin 8).val + 4 ≤ 0xE0 := by decide

theorem wit_RegisterFormsFrame : ∀ i ∈ [Instr.ldc 0 3, .unpk 4 .key 7, .qr 0 5 10 15], writesX i ≠ [] ∧
    holds (exec i (tBusy 1)) (fun _ => true) := by decide

theorem wit_StoringFormFrame : storesAt (.pack 15 7) = some 0xDC ∧
    holds (exec (.pack 15 7) (tBusy 104)) (fun _ => true) := by decide

theorem wit_ControlFormsFrame : holds (exec .deriveKey tIdle) (fun _ => true) ∧
    holds (exec .chk (tBusy 0)) (fun _ => true) ∧ (tBusy 0).lengthError = none ∧
    holds (exec .endOp (tBusy 105)) (fun _ => true) := by decide

theorem wit_AddWrapsAndXorAddsBits : 31 < 32 := by decide

theorem wit_RotateMovesEveryBit : (1 ≤ 1 ∧ 1 ≤ 31) ∧ 1 ≤ 31 ∧ 31 ≤ 31 := by decide

theorem wit_RotateByOrXorOrAdd : (1 ≤ 1 ∧ 1 ≤ 31) ∧ 1 ≤ 31 ∧ 31 ≤ 31 := by decide

theorem wit_UnpackingIsInjective : le32 1#8 2#8 3#8 255#8 = le32 1#8 2#8 3#8 255#8 := by decide

theorem wit_PackingUndoesUnpacking : 3 < 4 := by decide

theorem wit_PassOrderDoesNotMatter : colTuples.reverse.Perm colTuples ∧ diagTuples.reverse.Perm diagTuples :=
  ⟨List.reverse_perm _, List.reverse_perm _⟩

theorem wit_InitWordsInitialise : (tBusy 1).busy = true ∧ (tBusy 1).inputs = [] ∧ (tBusy 1).prog = urom ∧
    (tBusy 1).upc = 1#7 := by decide

theorem wit_EightQrWordsAreADoubleRound : ∀ r ∈ [0, 9], r < 10 ∧ (tBusy (17 + 8 * r)).busy = true ∧
    (tBusy (17 + 8 * r)).inputs = [] ∧ (tBusy (17 + 8 * r)).prog = urom ∧
    (tBusy (17 + 8 * r)).upc = BitVec.ofNat 7 (17 + 8 * r) ∧
    (tBusy (17 + 8 * r)).qrCount = BitVec.ofNat 7 (8 * r) := by decide

theorem wit_PackWordsFillOutInOrder : 8 ≤ 8 ∧ (tBusy 97).busy = true ∧ (tBusy 97).inputs = [] ∧
    (tBusy 97).prog = urom ∧ (tBusy 97).upc = 97#7 := by decide

theorem wit_OutputIgnoresTheMiddleWords : let x : Words := Vector.replicate 16 7#32
    let y : Words := (x.set 4 8#32).set 11 9#32
    x ≠ y ∧ ∀ i : Idx, i.val < 4 ∨ 12 ≤ i.val → x[i] = y[i] := by decide

/-- The hypotheses the statements about whole commands share, with right lengths and with a wrong one. -/
theorem wit_MicroLevelRefinesCommandLevel : (tStart.busy = false ∧ tStart.prog = urom ∧ (1#32).getLsbD 0 = true ∧
    tStart.inputs = [.host (.write32 0x00 1#32)]) ∧
    105 < commandSteps tStart ∧ 0 < commandSteps { tStart with keyLen := 33#32 } := by decide

theorem wit_CommandDerivesTheKey : tStart.busy = false ∧ tStart.prog = urom ∧
    tStart.inputs = [.host (.write32 0x00 1#32)] ∧ tStart.outLen = 32#32 ∧ tStart.keyLen = 32#32 ∧
    tStart.nonceLen = 16#32 := by decide

theorem wit_FailedCommandTouchesNothing :
    (let s := { tStart with outLen := 31#32, nonceLen := 15#32 }
     s.busy = false ∧ s.outLen ≠ 32#32 ∧
      (ErrParam.output, 31#32, 32#32) = (ErrParam.output, s.outLen, 32#32)) ∧
    (let s := { tStart with keyLen := 33#32 }
     s.outLen = 32#32 ∧ s.keyLen ≠ 32#32 ∧
      (ErrParam.inputKey, 33#32, 32#32) = (ErrParam.inputKey, s.keyLen, 32#32)) ∧
    (let s := { tStart with nonceLen := 17#32 }
     s.outLen = 32#32 ∧ s.keyLen = 32#32 ∧ s.nonceLen ≠ 16#32 ∧
      (ErrParam.nonce, 17#32, 16#32) = (ErrParam.nonce, s.nonceLen, 16#32)) := by decide

theorem wit_CommandDependsOnItsInputsOnly : let s' : State := { tStart with
      x := Vector.replicate 16 0#32, done := true, upc := 105#7, qrCount := 80#7
      inputs := [.host (.write32 0x00 0xFFFFFFFF#32)], resetDraws := 5 }
    tStart.busy = false ∧ s'.busy = false ∧ tStart.prog = urom ∧ s'.prog = urom ∧ (1#32).getLsbD 0 = true ∧
    (0xFFFFFFFF#32).getLsbD 0 = true ∧ tStart.inputs = [.host (.write32 0x00 1#32)] ∧
    s'.inputs = [.host (.write32 0x00 0xFFFFFFFF#32)] ∧ tStart.outLen = s'.outLen ∧ tStart.keyLen = s'.keyLen ∧
    tStart.nonceLen = s'.nonceLen ∧ tStart.key = s'.key ∧ tStart.nonce = s'.nonce ∧ tStart.x ≠ s'.x := by decide

theorem wit_UpcPathIsDataIndependent : tStart.busy = false ∧ tStart.prog = urom ∧ (1#32).getLsbD 0 = true ∧
    tStart.inputs = [.host (.write32 0x00 1#32)] := by decide

/-- The invariant holds at the first state of a running command. -/
theorem tBusy_inv : (tBusy 0).Inv where
  memWf := by decide
  prog := rfl
  upc_le := by decide
  oneStatus := by decide
  errorIff := by decide
  errorLegal := ⟨rfl, rfl⟩
  count := by decide
  idle := by decide
  lengths := by decide

/-- The invariant holds at a `PACK` of a running command. -/
theorem tBusy_pack_inv : (tBusy 97).Inv where
  memWf := by decide
  prog := rfl
  upc_le := by decide
  oneStatus := by decide
  errorIff := by decide
  errorLegal := ⟨rfl, rfl⟩
  count := by decide
  idle := by decide
  lengths := by decide

theorem wit_EveryCommandEnds : (tBusy 0).Inv ∧ (tBusy 0).busy = true ∧ (tBusy 0).inputs = [] :=
  ⟨tBusy_inv, by decide, by decide⟩

theorem wit_CtrlStartsOrDoesNothing : (tStart.inputs = .host (.write32 0x00 1#32) :: [] ∧
      (1#32).getLsbD 0 = true ∧ tStart.busy = false) ∧
    ((tIdleEvent (.host (.write32 0x00 0xFFFFFFFE#32))).inputs = .host (.write32 0x00 0xFFFFFFFE#32) :: [] ∧
      (0xFFFFFFFE#32).getLsbD 0 = false) ∧
    ((tEvent 105 (.host (.write32 0x00 1#32))).inputs = .host (.write32 0x00 1#32) :: [] ∧
      (tEvent 105 (.host (.write32 0x00 1#32))).busy = true) ∧
    (tIdleEvent (.host (.read32 0x00))).inputs = .host (.read32 0x00) :: [] := by decide

/-- The shapes at both ends of every window of R37, and the offsets just outside. -/
theorem wit_HostAccessShapes :
    (HostAccess.allowed (.read32 0x30) ∧ HostAccess.allowed (.write32 0x40 0#32) ∧ HostAccess.allowed (.read32 0x7C) ∧
      HostAccess.allowed (.write8 0x80 0#8) ∧ HostAccess.allowed (.read8 0xAF) ∧ HostAccess.allowed (.read8 0xC0) ∧
      HostAccess.allowed (.write8 0xDF 0#8)) ∧
    ¬HostAccess.allowed (.read32 0x34) ∧ ¬HostAccess.allowed (.read32 0x3C) ∧ ¬HostAccess.allowed (.read32 0x80) ∧
      ¬HostAccess.allowed (.read32 0x02) ∧ ¬HostAccess.allowed (.read8 0x7F) ∧ ¬HostAccess.allowed (.write8 0xB0 0#8) ∧
      ¬HostAccess.allowed (.read8 0xBF) ∧ ¬HostAccess.allowed (.read8 0xE0) ∧ ¬HostAccess.allowed (.read16 0xC0) ∧
      ¬HostAccess.allowed (.read32 0x100) := by
  simp [HostAccess.allowed]

theorem wit_RunningCommandIgnoresTheHost :
    ((tEvent 50 (.host (.write8 0x80 1#8))).busy = true ∧ HostAccess.isWrite (.write8 0x80 1#8) = true ∧
      (tEvent 50 (.host (.write8 0x80 1#8))).inputs = .host (.write8 0x80 1#8) :: []) ∧
    HostAccess.allowed (.write8 0x80 1#8) ∧ HostAccess.allowed (.read8 0xDF) ∧
    ((tEvent 50 (.host (.read8 0xDF))).busy = true ∧ HostAccess.isWrite (.read8 0xDF) = false ∧
      (tEvent 50 (.host (.read8 0xDF))).inputs = .host (.read8 0xDF) :: []) ∧
    (holds (step (tBusy 17)) (fun _ => true) ∧ (tBusy 17).inputs = []) := by
  refine ⟨by decide, by simp [HostAccess.allowed], by simp [HostAccess.allowed], by decide, by decide⟩

theorem wit_LengthRegistersReadBack : ∀ off ∈ [0x08, 0x0C, 0x10],
    { tIdle with inputs := [.host (.write32 off 31#32), .host (.read32 off)] }.busy = false ∧
    { tIdle with inputs := [.host (.write32 off 31#32), .host (.read32 off)] }.inputs =
      .host (.write32 off 31#32) :: .host (.read32 off) :: [] := by decide

theorem wit_BufferBytesReadBack : ∀ off ∈ [0x80, 0x9F, 0xA0, 0xAF, 0xC0, 0xDF],
    (0x80 ≤ off ∧ off ≤ 0xAF ∨ 0xC0 ≤ off ∧ off ≤ 0xDF) ∧
    { tIdle with inputs := [.host (.write8 off 5#8), .host (.read8 off)] }.busy = false ∧
    { tIdle with inputs := [.host (.write8 off 5#8), .host (.read8 off)] }.inputs =
      .host (.write8 off 5#8) :: .host (.read8 off) :: [] := by decide

theorem wit_BufferReadsAnswerTheCurrentByte : ∀ off ∈ [0x80, 0x9F, 0xA0, 0xAF, 0xC0, 0xDF],
    (0x80 ≤ off ∧ off ≤ 0xAF ∨ 0xC0 ≤ off ∧ off ≤ 0xDF) ∧
    (tEvent 100 (.host (.read8 off))).inputs = .host (.read8 off) :: [] ∧
    (tIdleEvent (.host (.read8 off))).inputs = .host (.read8 off) :: [] := by decide

theorem wit_OnlyStartHasASideEffect : (∃ t, hostAccess (.write32 0x00 1#32) tIdle = .next t) ∧
    (∃ t, hostAccess (.write8 0xC0 1#8) tIdle = .next t) ∧
    (∃ t, hostAccess (.read8 0xAF) (tBusy 40) = .next t) ∧ (∃ t, hostAccess (.write32 0x10 1#32) tIdle = .next t) ∧
    (∃ t, hostAccess (.write8 0xDF 1#8) (tBusy 40) = .next t) ∧
    ∀ off ∈ [0x04, 0x14, 0x30, 0x40, 0x7C],
      off % 4 = 0 ∧ (off = 0x04 ∨ 0x14 ≤ off ∧ off ≤ 0x30 ∨ 0x40 ≤ off ∧ off ≤ 0x7C) :=
  ⟨⟨_, rfl⟩, ⟨_, rfl⟩, ⟨_, rfl⟩, ⟨_, rfl⟩, ⟨_, rfl⟩, by decide⟩

theorem wit_CoreNeverWritesItsInputs : (∃ t, step (tBusy 5) = .next t) ∧ (∀ rest, (tBusy 5).inputs ≠ .reset :: rest) ∧
    ∀ a rest, HostAccess.isWrite a = true → (tBusy 5).inputs ≠ .host a :: rest :=
  ⟨⟨_, rfl⟩, nofun, nofun⟩

theorem wit_WorkingStateChangesByMicroOperationsOnly : ∃ t, step (tBusy 1) = .next t ∧
    t.readX 0 ≠ (tBusy 1).readX 0 := ⟨_, rfl, by decide⟩

theorem wit_OutChangesOnlyAfterTheCheck : (tBusy 97).Inv ∧ ∃ t, step (tBusy 97) = .next t ∧
    t.readByte (0xC0 + (3 : Fin 32).val) ≠ (tBusy 97).readByte (0xC0 + (3 : Fin 32).val) :=
  ⟨tBusy_pack_inv, _, rfl, by decide⟩

theorem wit_StepKeepsTheInvariant : (tBusy 0).Inv ∧ ∃ t, step (tBusy 0) = .next t := ⟨tBusy_inv, _, rfl⟩

theorem wit_HardwareNeverRefuses : (tBusy 97).Inv ∧ ∀ a rest, (tBusy 97).inputs = .host a :: rest → a.allowed :=
  ⟨tBusy_pack_inv, fun _ _ h => by cases h⟩

theorem wit_ResetEventAborts : (tEvent 100 .reset).inputs = .reset :: [] := by decide

theorem wit_InstancesAreIndependent : (0 : Fin 2) ≠ 1 ∧
    ∃ ts us, instancesStep (0 : Fin 2) (#v[tBusy 0, tIdle] : Instances 2) = .next ts ∧
      instancesStep (1 : Fin 2) ts = .next us :=
  ⟨by decide, _, _, rfl, rfl⟩

end Sys2Proof.Tests
end

section
/-! The host port's reasoning rules: what a 32-bit access of a known register does, and what a word written to `CTRL`
does (`10_state.md` R15, R22, R25; `20_memory.md` R38, R39). -/

namespace Sys2Proof.Machine

variable {s : State}

/-- A pending host access is taken off the list and performed. -/
theorem step_host {a : HostAccess} {rest : List Event} (h : s.inputs = .host a :: rest) :
    step s = hostAccess a (s.withInputs rest) := by
  rw [step_cons h, event_host]

theorem whenIdle_of_busy (e : Result) (h : s.busy = true) : whenIdle s e = .next s := by
  unfold whenIdle; rw [if_pos h]

theorem whenIdle_of_idle (e : Result) (h : s.busy = false) : whenIdle s e = e := by
  unfold whenIdle; rw [h]; rfl

/-- An effect that leaves the state as it is does so while busy too. -/
@[simp] theorem whenIdle_next_self (s : State) : whenIdle s (.next s) = .next s := ite_self _

theorem hostAccess_read32 {off : Nat} {r : HostReg} (s : State) (h : regAt off = some r) :
    hostAccess (.read32 off) s = .next (s.answer (.word (s.readReg r))) := by
  simp only [hostAccess, h]

theorem hostAccess_write32 {off : Nat} {r : HostReg} (w : Word) (s : State) (h : regAt off = some r) :
    hostAccess (.write32 off w) s = whenIdle s (writeReg r w s) := by
  simp only [hostAccess, h]

/-- A write that reaches neither `CTRL` nor a length register is ignored, idle or busy (R38, R39). -/
theorem hostAccess_write32_readOnly {off : Nat} {r : HostReg} (w : Word) (s : State) (h : regAt off = some r)
    (h1 : r ≠ .ctrl) (h2 : r ≠ .outLen) (h3 : r ≠ .keyLen) (h4 : r ≠ .nonceLen) :
    hostAccess (.write32 off w) s = .next s := by
  rw [hostAccess_write32 w s h, writeReg_readOnly w s h1 h2 h3 h4, whenIdle_next_self]

theorem regAt_zero : regAt 0x00 = some .ctrl := rfl
theorem regAt_upc : regAt 0x2C = some .upc := rfl
theorem regAt_qrCount : regAt 0x30 = some .qrCount := rfl

/-- A word with bit 0 set is the command (R15, R51). -/
theorem writeCtrl_start {w : Word} (s : State) (h : w.getLsbD 0 = true) : writeCtrl w s = exec .deriveKey s := by
  simp only [writeCtrl, decodeCommand, if_pos h]

/-- A word with bit 0 clear is no command (R15, R51). -/
theorem writeCtrl_startClear {w : Word} (s : State) (h : w.getLsbD 0 = false) : writeCtrl w s = .next s := by
  simp only [writeCtrl, decodeCommand, h, Bool.false_eq_true, if_false]

/-- A write of `CTRL` with bit 0 set, while idle, performs the command. -/
theorem hostAccess_ctrl_start {w : Word} (hw : w.getLsbD 0 = true) (hb : s.busy = false) :
    hostAccess (.write32 0x00 w) s = exec .deriveKey s := by
  rw [hostAccess_write32 w s regAt_zero, whenIdle_of_idle _ hb]
  exact writeCtrl_start s hw

/-- A write of `CTRL` with bit 0 clear, or while a command runs, changes nothing. -/
theorem hostAccess_ctrl_ignored {w : Word} (h : w.getLsbD 0 = false ∨ s.busy = true) :
    hostAccess (.write32 0x00 w) s = .next s := by
  rw [hostAccess_write32 w s regAt_zero]
  rcases h with hw | hb
  · have hc : writeReg .ctrl w s = .next s := writeCtrl_startClear s hw
    rw [hc, whenIdle_next_self]
  · exact whenIdle_of_busy _ hb

end Sys2Proof.Machine
end

section
/-! The statements about the host's view of `CTRL` and of the test window (`10_state.md` R15, R25). -/

namespace Sys2Proof.Machine

/-- Settles O37, by the pending access being a write or a read of `CTRL`, and for a write by bit 0 and `BUSY`. -/
theorem ctrlStartsOrDoesNothing : Obligations.CtrlStartsOrDoesNothing := by
  refine ⟨fun s w rest hi => ⟨fun hw hb => ?start, fun h => ?ignored⟩, fun s rest hi => ?read⟩
  case start => exact (step_host hi).trans (hostAccess_ctrl_start hw hb)
  case ignored => exact (step_host hi).trans (hostAccess_ctrl_ignored h)
  case read => exact (step_host hi).trans (hostAccess_read32 _ regAt_zero)

/-- Settles O43: each offset of the test window holds its register, a read answers the register as the hook shows it
(`hooked`), and none of these registers takes a write. -/
theorem testHookGatesTheWindow : Obligations.TestHookGatesTheWindow := fun s =>
  ⟨hostAccess_read32 s regAt_upc,
   hostAccess_read32 s regAt_qrCount,
   fun i => hostAccess_read32 s (regAt_x i),
   fun w => ⟨hostAccess_write32_readOnly w s regAt_upc nofun nofun nofun nofun,
     hostAccess_write32_readOnly w s regAt_qrCount nofun nofun nofun nofun⟩,
   fun i w => hostAccess_write32_readOnly w s (regAt_x i) nofun nofun nofun nofun⟩

end Sys2Proof.Machine
end

section
/-! The little-endian unpacker's rules (`20_memory.md` R32): its value, and that the value has one set of byte digits. -/

namespace Sys2Proof.Machine

/-- Appending bit vectors adds their values at their places. -/
theorem toNat_append_eq_add {m n : Nat} (x : BitVec m) (y : BitVec n) :
    (x ++ y).toNat = 2 ^ n * x.toNat + y.toNat := by
  rw [BitVec.toNat_append, ← Nat.shiftLeft_add_eq_or_of_lt y.isLt, Nat.shiftLeft_eq, Nat.mul_comm]

/-- The value of `le32` in base `2^8`, the first byte the least significant (R32). -/
theorem le32_toNat (b0 b1 b2 b3 : Byte) : (le32 b0 b1 b2 b3).toNat =
    b0.toNat + 2 ^ 8 * b1.toNat + 2 ^ 16 * b2.toNat + 2 ^ 24 * b3.toNat := by
  unfold le32
  rw [toNat_append_eq_add, toNat_append_eq_add, toNat_append_eq_add]
  omega

/-- Base-`2^8` digits are unique: equal words have equal bytes (R32). -/
theorem le32_inj {b0 b1 b2 b3 c0 c1 c2 c3 : Byte} (h : le32 b0 b1 b2 b3 = le32 c0 c1 c2 c3) :
    b0 = c0 ∧ b1 = c1 ∧ b2 = c2 ∧ b3 = c3 := by
  have hv : b0.toNat + 2 ^ 8 * b1.toNat + 2 ^ 16 * b2.toNat + 2 ^ 24 * b3.toNat =
      c0.toNat + 2 ^ 8 * c1.toNat + 2 ^ 16 * c2.toNat + 2 ^ 24 * c3.toNat := by
    rw [← le32_toNat, h, le32_toNat]
  simp only [← BitVec.toNat_inj]
  omega

end Sys2Proof.Machine
end

section
/-! A byte written is the byte read back, and the only one that changes (`10_state.md` R11 to R13). -/

namespace Sys2Proof.Machine

variable (s : State)

@[simp] theorem State.readByte_writeByte_self (a : Nat) (b : Byte) : (s.writeByte a b).readByte a = b := by
  rw [State.readByte_writeByte, if_pos rfl]

theorem State.readByte_writeByte_of_ne {a c : Nat} (h : c ≠ a) (b : Byte) :
    (s.writeByte a b).readByte c = s.readByte c := by
  rw [State.readByte_writeByte, if_neg h]

end Sys2Proof.Machine
end

section
/-! The statements about the unpacker and about the side effects of host accesses (`20_memory.md` R32, R39). -/

namespace Sys2Proof.Machine

/-- Settles O24, by the value of `le32` in base `2^8` and the uniqueness of its digits. -/
theorem unpackingIsInjective : Obligations.UnpackingIsInjective :=
  ⟨le32_toNat, fun _ _ _ _ _ _ _ _ => le32_inj⟩

/-- Settles O42. What an access can do is the case split of `hostAccess_next`, and each register that takes a write
stands at one offset of the map; the read-only offsets hold none of these registers, and `CTRL` reads as 0. -/
theorem onlyStartHasASideEffect : Obligations.OnlyStartHasASideEffect := by
  refine ⟨fun s t a h => ?effects, fun s off w h4 hoff => ?readOnly, fun s => hostAccess_read32 s regAt_zero⟩
  case effects =>
    rcases hostAccess_next h with ⟨ha, v, rfl⟩ | hsame | ⟨hb, hw⟩
    · exact .inr (.inl ⟨ha, rfl⟩)
    · exact .inr (.inr (.inl hsame))
    rcases hw with ⟨off, w, rfl, hr, hw0, -⟩ | hwrite
    · obtain rfl := regAt_ctrl hr
      exact .inl ⟨w, rfl, hw0, hb⟩
    · refine .inr (.inr (.inr ⟨hb, ?_⟩))
      rcases hwrite with ⟨off, w, rfl, hr, rfl⟩ | ⟨off, w, rfl, hr, rfl⟩ | ⟨off, w, rfl, hr, rfl⟩ |
        ⟨off, b, rfl, -, rfl⟩
      · obtain rfl := regAt_outLen hr
        exact .inl ⟨w, rfl, rfl⟩
      · obtain rfl := regAt_keyLen hr
        exact .inr (.inl ⟨w, rfl, rfl⟩)
      · obtain rfl := regAt_nonceLen hr
        exact .inr (.inr (.inl ⟨w, rfl, rfl⟩))
      · exact .inr (.inr (.inr ⟨off, b, rfl, rfl, s.readByte_writeByte_self off b,
          fun _ hk => s.readByte_writeByte_of_ne hk b⟩))
  case readOnly =>
    obtain ⟨r, hr, hctrl, hout, hkey, hnonce⟩ := regAt_readOnly h4 hoff
    exact hostAccess_write32_readOnly w s hr hctrl hout hkey hnonce

end Sys2Proof.Machine
end

section
/-! The bit patterns of the micro-operation formats, read as fields of the word's value (`30_encoding.md` R53 to R57). -/

namespace Sys2Proof

/-- The mask of a field keeps the field, in its place. -/
theorem and_fieldMask (n lo len : Nat) : n &&& (2 ^ len - 1) <<< lo = (n / 2 ^ lo % 2 ^ len) <<< lo := by
  apply Nat.eq_of_testBit_eq
  intro i
  by_cases h : lo ≤ i <;> simp [Nat.testBit_shiftLeft, h, Nat.testBit_div_two_pow, Bool.and_comm]

/-- The bits of a field are all 0 exactly when the field is. -/
theorem and_fieldMask_eq_zero (n lo len : Nat) : n &&& (2 ^ len - 1) <<< lo = 0 ↔ n / 2 ^ lo % 2 ^ len = 0 := by
  rw [and_fieldMask, Nat.shiftLeft_eq_zero_iff]

/-- A word whose bits 27:0 are 0 is its opcode in its place (format Z, R53). -/
theorem eq_opcodeWord_iff (u : Word) (op : Nat) (hop : op < 16) :
    u = BitVec.ofNat 32 (op <<< 28) ↔ u.toNat / 2 ^ 28 = op ∧ u.toNat % 2 ^ 28 = 0 := by
  rw [← BitVec.toNat_inj, BitVec.toNat_ofNat, Nat.shiftLeft_eq, Nat.mod_eq_of_lt (by omega)]
  omega

/-- The patterns of the formats with operands: the opcode, bits 27:16 all 0, and the unnamed bits of 15:0 all 0. -/
theorem formatPattern_iff (u : Word) (op low : Nat) (hop : op < 16) (hlow : low < 2 ^ 16) :
    u &&& BitVec.ofNat 32 (0xFFFF0000 ||| low) = BitVec.ofNat 32 (op <<< 28) ↔
      u.toNat / 2 ^ 28 = op ∧ u.toNat / 2 ^ 16 % 2 ^ 12 = 0 ∧ u.toNat &&& low = 0 := by
  have hmask : (0xFFFF0000 ||| low) < 2 ^ 32 := Nat.or_lt_two_pow (by decide) (by omega)
  have hhigh : u.toNat &&& 0xFFFF0000 = (u.toNat / 2 ^ 16 % 2 ^ 16) <<< 16 := and_fieldMask _ 16 16
  have hle : u.toNat &&& low ≤ low := Nat.and_le_right
  rw [← BitVec.toNat_inj, BitVec.toNat_and, BitVec.toNat_ofNat, BitVec.toNat_ofNat, Nat.mod_eq_of_lt hmask,
    Nat.and_or_distrib_left, hhigh, ← Nat.shiftLeft_add_eq_or_of_lt (by omega)]
  omega

theorem chkPattern_iff (u : Word) : u = 0x10000000#32 ↔ u.toNat / 2 ^ 28 = 1 ∧ u.toNat % 2 ^ 28 = 0 :=
  eq_opcodeWord_iff u 1 (by decide)

theorem ldcPattern_iff (u : Word) : u &&& 0xFFFF0FFC#32 = 0x20000000#32 ↔
    u.toNat / 2 ^ 28 = 2 ∧ u.toNat / 2 ^ 16 % 2 ^ 12 = 0 ∧ u.toNat / 2 ^ 2 % 2 ^ 10 = 0 := by
  rw [← and_fieldMask_eq_zero _ 2 10]
  exact formatPattern_iff u 2 ((2 ^ 10 - 1) <<< 2) (by decide) (by decide)

theorem unpkPattern_iff (u : Word) : u &&& 0xFFFF0EF8#32 = 0x30000000#32 ↔
    u.toNat / 2 ^ 28 = 3 ∧ u.toNat / 2 ^ 16 % 2 ^ 12 = 0 ∧ u.toNat / 2 ^ 9 % 2 ^ 3 = 0 ∧ u.toNat / 2 ^ 3 % 2 ^ 5 = 0 := by
  rw [← and_fieldMask_eq_zero _ 9 3, ← and_fieldMask_eq_zero _ 3 5, ← Nat.or_eq_zero_iff, ← Nat.and_or_distrib_left]
  exact formatPattern_iff u 3 ((2 ^ 3 - 1) <<< 9 ||| (2 ^ 5 - 1) <<< 3) (by decide) (by decide)

theorem qrPattern_iff (u : Word) : u &&& 0xFFFF0000#32 = 0x40000000#32 ↔
    u.toNat / 2 ^ 28 = 4 ∧ u.toNat / 2 ^ 16 % 2 ^ 12 = 0 :=
  (formatPattern_iff u 4 0 (by decide) (by decide)).trans (and_congr_right fun _ => and_iff_left (Nat.and_zero _))

theorem packPattern_iff (u : Word) : u &&& 0xFFFF0FF8#32 = 0x50000000#32 ↔
    u.toNat / 2 ^ 28 = 5 ∧ u.toNat / 2 ^ 16 % 2 ^ 12 = 0 ∧ u.toNat / 2 ^ 3 % 2 ^ 9 = 0 := by
  rw [← and_fieldMask_eq_zero _ 3 9]
  exact formatPattern_iff u 5 ((2 ^ 9 - 1) <<< 3) (by decide) (by decide)

theorem endPattern_iff (u : Word) : u = 0x60000000#32 ↔ u.toNat / 2 ^ 28 = 6 ∧ u.toNat % 2 ^ 28 = 0 :=
  eq_opcodeWord_iff u 6 (by decide)

end Sys2Proof
end

section
/-! Which words the decoder rejects, in the fields of the word's value (`30_encoding.md` R59). -/

namespace Sys2Proof

/-! ### The two reserved forms -/

/-- The reserved form of `UNPK`: `s = 1` and `wo >= 4` (R59). -/
def HasNonceOffset (n : Nat) : Prop := n / 2 ^ 8 % 2 = 1 ∧ 4 ≤ n % 8

/-- The reserved form of `QR`: two of `a, b, c, d` are equal (R59). -/
def HasEqualIndices (n : Nat) : Prop :=
  let a := n / 2 ^ 12 % 16
  let b := n / 2 ^ 8 % 16
  let c := n / 2 ^ 4 % 16
  let d := n % 16
  a = b ∨ a = c ∨ a = d ∨ b = c ∨ b = d ∨ c = d

theorem nibbleAt_val (u : Word) (lo : Nat) : (nibbleAt u lo).val = u.toNat / 2 ^ lo % 16 := by
  unfold nibbleAt
  rw [Fin.val_ofNat, BitVec.toNat_ushiftRight, Nat.shiftRight_eq_div_pow]

theorem nibbleAt_eq_iff (u : Word) (lo lo' : Nat) :
    nibbleAt u lo = nibbleAt u lo' ↔ u.toNat / 2 ^ lo % 16 = u.toNat / 2 ^ lo' % 16 := by
  rw [← Fin.val_inj, nibbleAt_val, nibbleAt_val]

theorem sliceInBuffer_fields_iff (u : Word) :
    sliceInBuffer (sourceField u) (offsetField u) = true ↔ ¬HasNonceOffset u.toNat := by
  have hs : u.getLsbD 8 = true ↔ u.toNat / 2 ^ 8 % 2 = 1 := by
    rw [BitVec.getLsbD, Nat.testBit_eq_decide_div_mod_eq, decide_eq_true_eq]
  unfold sourceField HasNonceOffset
  by_cases h : u.getLsbD 8 = true
  · rw [if_pos h, sliceInBuffer, decide_eq_true_eq, offsetField, Fin.val_ofNat]
    simp only [hs.1 h, true_and, not_le]
  · rw [if_neg h]
    exact iff_of_true rfl fun ⟨h1, _⟩ => h (hs.2 h1)

theorem pairwiseDistinct_fields_iff (u : Word) :
    pairwiseDistinct (nibbleAt u 12) (nibbleAt u 8) (nibbleAt u 4) (nibbleAt u 0) = true ↔
      ¬HasEqualIndices u.toNat := by
  simp only [pairwiseDistinct, HasEqualIndices, decide_eq_true_eq, ne_eq, nibbleAt_eq_iff, Nat.pow_zero, Nat.div_one,
    not_or]

/-! ### The decoder -/

/-- The decoder's answer is a rejection, for whatever reason. -/
def Decoded.Rejected (d : Decoded) : Prop := ∃ why, d = .invalid why

@[simp] theorem Decoded.not_rejected_ok (i : Instr) : ¬(Decoded.ok i).Rejected := nofun

@[simp] theorem Decoded.rejected_invalid (why : Reject) : (Decoded.invalid why).Rejected := ⟨why, rfl⟩

theorem Decoded.rejected_ite {p : Prop} [Decidable p] (d e : Decoded) :
    (if p then d else e).Rejected ↔ if p then d.Rejected else e.Rejected := by
  split <;> rfl

/-- A form guarded by a check is rejected exactly when the check fails. -/
theorem Decoded.rejected_guard_iff {p q : Prop} [Decidable p] (h : p ↔ ¬q) (i : Instr) (why : Reject) :
    (if p then .ok i else .invalid why : Decoded).Rejected ↔ q := by
  rw [Decoded.rejected_ite]
  simp [h]

theorem decodeUnpk_rejected_iff (u : Word) : (decodeUnpk u).Rejected ↔ HasNonceOffset u.toNat :=
  Decoded.rejected_guard_iff (sliceInBuffer_fields_iff u) _ _

theorem decodeQr_rejected_iff (u : Word) : (decodeQr u).Rejected ↔ HasEqualIndices u.toNat :=
  Decoded.rejected_guard_iff (pairwiseDistinct_fields_iff u) _ _

/-- The words R59 reserves, as fields of their value: an unassigned opcode, or, format by format, an unnamed bit that
is 1 or a reserved form. -/
def ReservedValue (n : Nat) : Prop :=
  let op := n / 2 ^ 28
  let hi := n / 2 ^ 16 % 2 ^ 12
  op = 0 ∨ 7 ≤ op ∨
  (op = 1 ∨ op = 6) ∧ n % 2 ^ 28 ≠ 0 ∨
  op = 2 ∧ (hi ≠ 0 ∨ n / 2 ^ 2 % 2 ^ 10 ≠ 0) ∨
  op = 3 ∧ (hi ≠ 0 ∨ n / 2 ^ 9 % 2 ^ 3 ≠ 0 ∨ n / 2 ^ 3 % 2 ^ 5 ≠ 0 ∨ HasNonceOffset n) ∨
  op = 4 ∧ (hi ≠ 0 ∨ HasEqualIndices n) ∨
  op = 5 ∧ (hi ≠ 0 ∨ n / 2 ^ 3 % 2 ^ 9 ≠ 0)

/-- The decoder rejects exactly the reserved words: under each opcode at most one pattern of the decoder can be met,
and it is met exactly when the unnamed bits are 0. -/
theorem decodeUop_rejected_iff (u : Word) : (decodeUop u).Rejected ↔ ReservedValue u.toNat := by
  unfold decodeUop ReservedValue
  simp only [Decoded.rejected_ite, Decoded.not_rejected_ok, Decoded.rejected_invalid, ite_self,
    decodeUnpk_rejected_iff, decodeQr_rejected_iff, chkPattern_iff, ldcPattern_iff, unpkPattern_iff, qrPattern_iff,
    packPattern_iff, endPattern_iff]
  generalize u.toNat / 2 ^ 28 = op
  rcases Nat.lt_or_ge op 7 with hlt | hge
  · interval_cases op <;> simp [imp_iff_not_or, or_assoc]
  · have hne : ∀ k < 7, op ≠ k := fun k hk => by omega
    simp [hne, hge]

end Sys2Proof
end

section
/-! The words of `UROM` are the encodings of its macros (`30_encoding.md` R60, R63), and the sequencer's answer to a
reserved word (R59). -/

namespace Sys2Proof.Machine

theorem urom_length : urom.length = 106 := by decide

/-- No word of `UROM` is reserved. -/
theorem decodeUop_ok_of_mem_urom {u : Word} (hu : u ∈ urom) : ∃ i, decodeUop u = .ok i := by
  obtain ⟨n, hn, rfl⟩ := List.mem_iff_getElem.1 hu
  have h := urom_decodes ⟨n, urom_length ▸ hn⟩
  rw [List.getElem?_eq_getElem hn] at h
  exact ⟨uromOp n, Option.some.inj h⟩

theorem runWord_invalid {u : Word} {why : Reject} (s : State) (h : decodeUop u = .invalid why) :
    runWord u s = .refused (.reservedWord why) := by
  unfold runWord; rw [h]

theorem initWords_eq_encode : initWords = initOps.map encode := by decide

theorem doubleRoundWords_eq_encode : doubleRoundWords = doubleRoundOps.map encode := by decide

theorem extractWords_eq_encode : extractWords = extractOps.map encode := by decide

/-- `UROM` is `CHK; INIT; MIX; EXTRACT; END` (R63). -/
theorem urom_eq_encode : urom = ([Instr.chk] ++ initOps ++ (List.replicate 10 doubleRoundOps).flatten ++ extractOps ++
    [Instr.endOp]).map encode := by
  simp only [List.map_append, List.map_flatten, List.map_replicate, ← initWords_eq_encode,
    ← doubleRoundWords_eq_encode, ← extractWords_eq_encode]
  rfl

end Sys2Proof.Machine
end

section
/-! The statements about reserved words and about `UROM` (`30_encoding.md` R59, R63). -/

namespace Sys2Proof.Machine

/-- Settles O4: the rejected words are those of `ReservedValue`, which is R59's list; `UROM` decodes word by word; and
what the sequencer does with a rejected word is `runWord_invalid`. -/
theorem reservedWordsExactly : Obligations.ReservedWordsExactly :=
  ⟨decodeUop_rejected_iff, fun _ => decodeUop_ok_of_mem_urom,
   fun s _ _ hb hu hd => (sequencerStep_busy hb hu).trans (runWord_invalid s hd)⟩

/-- Settles O5, macro by macro. -/
theorem uromIsItsMacros : Obligations.UromIsItsMacros := ⟨urom_length, urom_eq_encode⟩

end Sys2Proof.Machine
end

section
/-! Running through known states, and what the runs of `UROM` share: the states that differ from a running one in
the working state, the memory, `UPC` and `QR_COUNT` only (`30_encoding.md` R65). -/

namespace Sys2Proof.Machine

variable {s : State}

/-- A run whose every state is known: `σ k` is the state after `k` steps. -/
theorem runSteps_path {σ : Nat → State} {n : Nat} (h : ∀ k < n, step (σ k) = .next (σ (k + 1))) :
    runSteps n (σ 0) = .next (σ n) := by
  induction n with
  | zero => rfl
  | succ n ih =>
    have hn : runSteps n (σ 0) = .next (σ n) := ih fun k hk => h k (by omega)
    rw [runSteps_add hn, runSteps_succ_of_next (h n (by omega))]
    rfl

/-- Two runs, one after the other. -/
theorem runSteps_trans {t u : State} {m n : Nat} (hm : runSteps m s = .next t) (hn : runSteps n t = .next u) :
    runSteps (m + n) s = .next u := (runSteps_add hm).trans hn

/-- A command goes on running whatever its micro-operations write. -/
theorem Running.update (h : Running s) (x : Words) (mem : List Host.Cell) (q u : BitVec 7) :
    Running { s with x := x, mem := mem, qrCount := q, upc := u } := ⟨h.busy, h.inputs, h.prog⟩

end Sys2Proof.Machine
end

section
/-! Words 1 to 16 of `UROM`, its part `INIT`: one word of `Init(KEY, NONCE)` a step (`41_init_unpack.md` R83). -/

namespace Sys2Proof.Machine

variable {s : State}

/-! ### The first words of one working state over another -/

/-- The first `k` words of `new`, and the others of `old`. -/
def firstWords (k : Nat) (new old : Words) : Words :=
  Vector.ofFn fun i : Idx => if i.val < k then new[i] else old[i]

theorem firstWords_getElem (k : Nat) (new old : Words) {j : Nat} (hj : j < 16) :
    (firstWords k new old)[j] = if j < k then new[j] else old[j] := by
  simp only [firstWords, Vector.getElem_ofFn, Fin.getElem_fin]

theorem firstWords_zero (new old : Words) : firstWords 0 new old = old :=
  Vector.ext fun j hj => by rw [firstWords_getElem 0 new old hj, if_neg (by omega)]

theorem firstWords_all (new old : Words) : firstWords 16 new old = new :=
  Vector.ext fun j hj => by rw [firstWords_getElem 16 new old hj, if_pos hj]

theorem set_firstWords (i : Idx) (new old : Words) :
    (firstWords i.val new old).set i new[i] = firstWords (i.val + 1) new old := by
  refine Vector.ext fun j hj => ?_
  rw [Vector.getElem_set, firstWords_getElem _ new old hj, firstWords_getElem _ new old hj]
  split
  case isTrue h => subst h; rw [if_pos (by omega)]; rfl
  case isFalse h => simp only [show j < i.val + 1 ↔ j < i.val by omega]

/-! ### The words of `Init(KEY, NONCE)`, each with the micro-operation that writes it -/

theorem uromOp_ldc {i : Idx} (h : i.val < 4) : uromOp (1 + i.val) = .ldc i ⟨i.val, h⟩ := by
  revert i; decide

theorem uromOp_unpk_key {i : Idx} (h4 : 4 ≤ i.val) (h12 : i.val < 12) :
    uromOp (1 + i.val) = .unpk i .key ⟨i.val - 4, by omega⟩ := by
  revert i; decide

theorem uromOp_unpk_nonce {i : Idx} (h : 12 ≤ i.val) :
    uromOp (1 + i.val) = .unpk i .nonce ⟨i.val - 12, by omega⟩ := by
  revert i; decide

theorem initWordsOf_const {i : Idx} (h : i.val < 4) (key : Vector Byte 32) (nonce : Vector Byte 16) :
    (initWordsOf key nonce)[i] = constWord ⟨i.val, h⟩ := by
  simp [initWordsOf, h]

theorem initWordsOf_key {i : Idx} (h4 : 4 ≤ i.val) (h12 : i.val < 12) (s : State) :
    (initWordsOf s.key s.nonce)[i] = s.readWordLE (sliceAddr .key ⟨i.val - 4, by omega⟩) := by
  have h : ¬i.val < 4 := by omega
  simp only [initWordsOf, Fin.getElem_fin, Vector.getElem_ofFn, h, h12, dif_neg, dif_pos, not_false_eq_true]
  exact (s.readWordLE_key (i.val - 4) (by omega)).symm

theorem initWordsOf_nonce {i : Idx} (h : 12 ≤ i.val) (s : State) :
    (initWordsOf s.key s.nonce)[i] = s.readWordLE (sliceAddr .nonce ⟨i.val - 12, by omega⟩) := by
  have h4 : ¬i.val < 4 := by omega
  have h12 : ¬i.val < 12 := by omega
  simp only [initWordsOf, Fin.getElem_fin, Vector.getElem_ofFn, h4, h12, dif_neg, not_false_eq_true]
  exact (s.readWordLE_nonce (i.val - 12) (by omega)).symm

/-- Word `1 + i` of `UROM` writes word `i` of `Init(KEY, NONCE)`: a constant, a slice of `KEY`, or a slice of
`NONCE`. -/
theorem Running.step_init (h : Running s) (i : Idx) (hu : s.upc = BitVec.ofNat 7 (1 + i.val)) :
    step s = .next { s with
      x := s.x.set i (initWordsOf s.key s.nonce)[i], upc := BitVec.ofNat 7 (1 + (i.val + 1)) } := by
  have hn : 1 + i.val ≤ 105 := by omega
  by_cases h4 : i.val < 4
  · rw [initWordsOf_const h4]
    exact h.step_ldc hn hu (uromOp_ldc h4)
  by_cases h12 : i.val < 12
  · rw [initWordsOf_key (by omega) h12]
    exact h.step_unpk hn hu (uromOp_unpk_key (by omega) h12) rfl
  · rw [initWordsOf_nonce (by omega)]
    exact h.step_unpk hn hu (uromOp_unpk_nonce (by omega)) (decide_eq_true (show i.val - 12 < 4 by omega))

/-- `INIT`: after `k` of its words the first `k` words of `X` are those of `Init(KEY, NONCE)`. -/
theorem Running.runSteps_init (h : Running s) (hu : s.upc = 1#7) :
    runSteps 16 s = .next { s with x := initWordsOf s.key s.nonce, upc := 17#7 } := by
  have path := runSteps_path (n := 16) (σ := fun k => { s with
      x := firstWords k (initWordsOf s.key s.nonce) s.x, upc := BitVec.ofNat 7 (1 + k) }) fun k hk => by
    rw [← set_firstWords ⟨k, hk⟩]
    exact (h.update _ s.mem s.qrCount _).step_init ⟨k, hk⟩ rfl
  simp only [firstWords_zero, firstWords_all] at path
  rwa [show BitVec.ofNat 7 (1 + 0) = s.upc from hu.symm] at path

end Sys2Proof.Machine
end

section
/-! Words 17 to 96 of `UROM`: eight `QR` words are a double-round, ten double-rounds the mixer
(`42_state_mixer.md` R93, R94, R98). -/

namespace Sys2Proof.Machine

variable {s : State}

/-- The tuples of a double-round: the column pass, then the diagonal pass (R93). -/
def roundTuples : List Tuple := colTuples ++ diagTuples

theorem doubleRound_eq (x : Words) : doubleRound x = applyTuples x roundTuples := by
  simp only [doubleRound, columnPass, diagonalPass, applyTuples, roundTuples, List.foldl_append]

theorem applyTuples_take_succ (x : Words) (ts : List Tuple) {j : Nat} (h : j < ts.length) :
    applyTuples x (ts.take (j + 1)) = quarterRoundOver (applyTuples x (ts.take j)) ts[j] := by
  rw [List.take_succ_eq_append_getElem h]
  exact List.foldl_concat ..

theorem roundTuples_distinct : ∀ j : Fin 8,
    let t := roundTuples[j]
    pairwiseDistinct t.1 t.2.1 t.2.2.1 t.2.2.2 = true := by decide

theorem doubleRoundOps_getD : ∀ j : Fin 8, doubleRoundOps.getD j.val .chk =
    let t := roundTuples[j]
    .qr t.1 t.2.1 t.2.2.1 t.2.2.2 := by decide

/-- Word `17 + 8r + j` of `UROM` is the `QR` of tuple `j` of a double-round. -/
theorem uromOp_qr (r : Fin 10) (j : Fin 8) : uromOp (17 + 8 * r.val + j.val) =
    let t := roundTuples[j]
    .qr t.1 t.2.1 t.2.2.1 t.2.2.2 := by
  have hj : (17 + 8 * r.val + j.val - 17) % 8 = j.val := by omega
  unfold uromOp
  rw [if_neg (by omega), if_neg (by omega), if_pos (by omega), hj]
  exact doubleRoundOps_getD j

theorem Running.step_round (h : Running s) {r j : Nat} (hr : r < 10) (hj : j < roundTuples.length)
    (hu : s.upc = BitVec.ofNat 7 (17 + 8 * r + j)) (hc : s.qrCount = BitVec.ofNat 7 (8 * r + j)) :
    step s = .next { s with
      x := quarterRoundOver s.x roundTuples[j]
      qrCount := BitVec.ofNat 7 (8 * r + (j + 1))
      upc := BitVec.ofNat 7 (17 + 8 * r + (j + 1)) } := by
  have h8 : j < 8 := hj
  exact h.step_qr (n := 17 + 8 * r + j) (q := 8 * r + j) (by omega) hu (uromOp_qr ⟨r, hr⟩ ⟨j, h8⟩)
    (roundTuples_distinct ⟨j, h8⟩) (by omega) hc

/-- Eight `QR` words are a double-round. -/
theorem Running.runSteps_doubleRound (h : Running s) {r : Nat} (hr : r < 10)
    (hu : s.upc = BitVec.ofNat 7 (17 + 8 * r)) (hc : s.qrCount = BitVec.ofNat 7 (8 * r)) :
    runSteps 8 s = .next { s with
      x := doubleRound s.x
      qrCount := BitVec.ofNat 7 (8 * (r + 1))
      upc := BitVec.ofNat 7 (17 + 8 * (r + 1)) } := by
  have path := runSteps_path (n := 8) (σ := fun j => { s with
      x := applyTuples s.x (roundTuples.take j)
      qrCount := BitVec.ofNat 7 (8 * r + j)
      upc := BitVec.ofNat 7 (17 + 8 * r + j) }) fun j hj => by
    rw [applyTuples_take_succ _ _ hj]
    exact (h.update _ s.mem _ _).step_round hr hj rfl rfl
  simp only [Nat.add_zero, ← hu, ← hc] at path
  rw [doubleRound_eq]
  exact path

/-- The last `n` double-rounds. -/
theorem Running.runSteps_doubleRounds (n : Nat) : ∀ {s : State} {r : Nat}, Running s → r + n = 10 →
    s.upc = BitVec.ofNat 7 (17 + 8 * r) → s.qrCount = BitVec.ofNat 7 (8 * r) →
    runSteps (8 * n) s = .next { s with x := doubleRounds n s.x, qrCount := 80#7, upc := 97#7 } := by
  induction n with
  | zero =>
    intro s r _ hr hu hc
    obtain rfl : r = 10 := hr
    rw [show 80#7 = s.qrCount from hc.symm, show 97#7 = s.upc from hu.symm]
    rfl
  | succ n ih =>
    intro s r h hr hu hc
    rw [Nat.mul_succ, Nat.add_comm]
    exact runSteps_trans (h.runSteps_doubleRound (by omega) hu hc)
      (ih (h.update _ s.mem _ _) (by omega) rfl rfl)

end Sys2Proof.Machine
end

section
/-! Words 97 to 104 of `UROM`, its part `EXTRACT`: the bytes of `OUT` in ascending order, four a step
(`43_extract_pack.md` R104). -/

namespace Sys2Proof.Machine

variable {s : State}

/-! ### The first bytes of `OUT` written -/

/-- The first `n` bytes of `OUT` written, in ascending order. -/
def State.writeOutUpTo (s : State) (o : Vector Byte 32) (n : Nat) : State :=
  ((List.finRange 32).take n).foldl (fun t k => t.writeByte (outBase + k.val) o[k]) s

theorem State.writeOutUpTo_zero (s : State) (o : Vector Byte 32) : s.writeOutUpTo o 0 = s := rfl

theorem State.writeOutUpTo_succ (s : State) (o : Vector Byte 32) (k : Fin 32) :
    s.writeOutUpTo o (k.val + 1) = (s.writeOutUpTo o k.val).writeByte (outBase + k.val) o[k] := by
  have hk : k.val < (List.finRange 32).length := by simp
  unfold State.writeOutUpTo
  rw [List.take_succ_eq_append_getElem hk, List.foldl_concat, List.getElem_finRange]
  rfl

theorem State.writeOutUpTo_all (s : State) (o : Vector Byte 32) : s.writeOutUpTo o 32 = s.writeOut o := by
  unfold State.writeOutUpTo
  rw [List.take_of_length_le (by simp)]
  rfl

theorem State.writeOutUpTo_eq (s : State) (o : Vector Byte 32) (n : Nat) :
    s.writeOutUpTo o n = { s with mem := (s.writeOutUpTo o n).mem } :=
  (writeOut_fold o _ s).1

/-- Byte `4m + n` of the output is byte `n` of word `OUTSEL[m]` (R101). -/
theorem extract_byte (x : Words) (m : Fin 8) {n : Nat} (hn : n < 4) :
    (extract x)[4 * m.val + n]'(by omega) = byteOfWord x[outSel m] n := by
  have hd : (4 * m.val + n) / 4 = m.val := by omega
  have hr : (4 * m.val + n) % 4 = n := by omega
  simp [extract, hd, hr]

/-- Four more bytes are one little-endian word. -/
theorem State.writeOutUpTo_extract (s : State) (x : Words) (m : Fin 8) :
    s.writeOutUpTo (extract x) (4 * (m.val + 1)) =
      (s.writeOutUpTo (extract x) (4 * m.val)).writeWordLE (outAddr m) x[outSel m] := by
  have next (n : Nat) (hn : n < 4) : s.writeOutUpTo (extract x) (4 * m.val + n + 1) =
      (s.writeOutUpTo (extract x) (4 * m.val + n)).writeByte (outAddr m + n) (byteOfWord x[outSel m] n) := by
    have hlt : 4 * m.val + n < 32 := by omega
    have hb : (extract x)[(⟨4 * m.val + n, hlt⟩ : Fin 32)] = byteOfWord x[outSel m] n := extract_byte x m hn
    rw [← hb, outAddr, Nat.add_assoc outBase]
    exact s.writeOutUpTo_succ (extract x) ⟨4 * m.val + n, hlt⟩
  rw [show 4 * (m.val + 1) = 4 * m.val + 3 + 1 from rfl, next 3 (by omega), next 2 (by omega), next 1 (by omega),
    next 0 (by omega)]
  rfl

theorem uromOp_pack : ∀ m : Fin 8, uromOp (97 + m.val) = .pack (outSel m) m := by decide

/-- `EXTRACT`: after `m` of its words the first `4m` bytes of `OUT` are written. -/
theorem Running.runSteps_extract (h : Running s) (hu : s.upc = 97#7) {m : Nat} (hm : m ≤ 8) :
    runSteps m s = .next { s with
      mem := (s.writeOutUpTo (extract s.x) (4 * m)).mem, upc := BitVec.ofNat 7 (97 + m) } := by
  have path := runSteps_path (n := m) (σ := fun m => { s with
      mem := (s.writeOutUpTo (extract s.x) (4 * m)).mem, upc := BitVec.ofNat 7 (97 + m) }) fun k hk => by
    rw [s.writeOutUpTo_extract s.x ⟨k, by omega⟩]
    exact (h.update s.x _ s.qrCount _).step_pack (n := 97 + k) (by omega) rfl (uromOp_pack ⟨k, by omega⟩)
  rwa [show BitVec.ofNat 7 (97 + 0) = s.upc from hu.symm] at path

end Sys2Proof.Machine
end

section
/-! The length check, and the command level by its outcome (`40_derivekey_validate.md` R72 to R74). -/

namespace Sys2Proof.Machine

variable {s s' : State}

/-- The first mismatch, in the order output, inputKey, nonce (R72, R122). -/
theorem State.lengthError_eq_some_iff {e : ErrParam × Word × Word} : s.lengthError = some e ↔
    s.outLen ≠ 32#32 ∧ e = (.output, s.outLen, 32#32) ∨
    s.outLen = 32#32 ∧ s.keyLen ≠ 32#32 ∧ e = (.inputKey, s.keyLen, 32#32) ∨
    s.outLen = 32#32 ∧ s.keyLen = 32#32 ∧ s.nonceLen ≠ 16#32 ∧ e = (.nonce, s.nonceLen, 16#32) := by
  unfold State.lengthError
  by_cases ho : s.outLen = 32#32
  · by_cases hk : s.keyLen = 32#32
    · by_cases hn : s.nonceLen = 16#32
      · simp [ho, hk, hn]
      · simp [ho, hk, hn, eq_comm]
    · simp [ho, hk, eq_comm]
  · simp [ho, eq_comm]

/-- The length check reads the three lengths and nothing else. -/
theorem State.lengthError_congr (ho : s.outLen = s'.outLen) (hk : s.keyLen = s'.keyLen)
    (hn : s.nonceLen = s'.nonceLen) : s.lengthError = s'.lengthError := by
  unfold State.lengthError; rw [ho, hk, hn]

theorem execChk_of_error {p : ErrParam} {actual expected : Word} (h : s.lengthError = some (p, actual, expected)) :
    execChk s = .next (s.raiseInvalidLength p actual expected) := by
  unfold execChk; rw [h]

theorem execChk_of_none (h : s.lengthError = none) (hu : s.upc ≠ 127#7) : execChk s = .next s.bumpUpc := by
  unfold execChk; rw [h]; exact State.advance_of_ne hu

theorem commandLevel_of_error {p : ErrParam} {actual expected : Word}
    (h : s.lengthError = some (p, actual, expected)) :
    commandLevel s = s.start.raiseInvalidLength p actual expected := by
  unfold commandLevel; rw [h]

theorem commandLevel_of_none (h : s.lengthError = none) : commandLevel s =
    { (s.start.writeOut (hchacha20 s.key s.nonce)).finish with
      x := mix (initWordsOf s.key s.nonce), upc := 105#7, qrCount := 80#7 } := by
  unfold commandLevel; rw [h]

theorem commandSteps_of_error {e : ErrParam × Word × Word} (h : s.lengthError = some e) : commandSteps s = 1 := by
  unfold commandSteps; rw [h]

theorem commandSteps_of_none (h : s.lengthError = none) : commandSteps s = 106 := by
  unfold commandSteps; rw [h]

/-! ### The contents of the buffers -/

theorem State.key_congr (h : ∀ a < 0xC0, s.readByte a = s'.readByte a) : s.key = s'.key :=
  Vector.ext fun k hk => by
    simp only [State.key, Vector.getElem_ofFn]
    exact h _ (by unfold keyBase; omega)

theorem State.nonce_congr (h : ∀ a < 0xC0, s.readByte a = s'.readByte a) : s.nonce = s'.nonce :=
  Vector.ext fun k hk => by
    simp only [State.nonce, Vector.getElem_ofFn]
    exact h _ (by unfold nonceBase; omega)

end Sys2Proof.Machine
end

section
/-! A whole command: the phases of `UROM` one after the other reach the state of the command level
(`40_derivekey_validate.md` R73, R74, R76). -/

namespace Sys2Proof.Machine

variable {s : State}

/-- Writing `OUT` reads and writes the memory only. -/
theorem State.writeOut_mem (s : State) (o : Vector Byte 32) : (s.writeOut o).mem =
    (List.finRange 32).foldl (fun m k => Memory.write m (outBase + k.val) o[k]) s.mem :=
  (List.foldl_hom State.mem fun _ _ => rfl).symm

/-- The state of the success transition, as the one `END` leaves. -/
theorem State.finish_writeOut_update (s : State) (o : Vector Byte 32) (x : Words) (q u : BitVec 7) :
    { (s.writeOut o).finish with x := x, qrCount := q, upc := u } =
      State.finish { s with x := x, mem := (s.writeOut o).mem, qrCount := q, upc := u } := by
  have hm := s.writeOut_eq o
  generalize s.writeOut o = t at hm ⊢
  rw [hm]
  rfl

theorem Running.runSteps_chk (h : Running s) (hu : s.upc = 0#7) (hl : s.lengthError = none) :
    runSteps 1 s = .next { s with upc := 1#7 } := runSteps_succ_of_next (n := 0) (h.step_chk hu hl)

theorem Running.runSteps_end (h : Running s) (hu : s.upc = 105#7) : runSteps 1 s = .next s.finish :=
  runSteps_succ_of_next (n := 0) (h.step_end hu)

/-- With right lengths the 106 words of `UROM` derive the key: `CHK`, `INIT`, the mixer, `EXTRACT`, `END`. -/
theorem Running.runSteps_urom (h : Running s) (hu : s.upc = 0#7) (hc : s.qrCount = 0#7) (hl : s.lengthError = none) :
    runSteps 106 s = .next { (s.writeOut (hchacha20 s.key s.nonce)).finish with
      x := mix (initWordsOf s.key s.nonce), upc := 105#7, qrCount := 80#7 } := by
  have chk : runSteps 1 s = .next { s with upc := 1#7 } := h.runSteps_chk hu hl
  have init : runSteps 16 { s with upc := 1#7 } = .next { s with x := initWordsOf s.key s.nonce, upc := 17#7 } :=
    (h.update s.x s.mem s.qrCount 1#7).runSteps_init rfl
  have extraction (x : Words) : runSteps 8 { s with x := x, qrCount := 80#7, upc := 97#7 } =
      .next { s with x := x, mem := (s.writeOut (extract x)).mem, qrCount := 80#7, upc := 105#7 } := by
    rw [(h.update x s.mem 80#7 97#7).runSteps_extract rfl (Nat.le_refl 8), State.writeOutUpTo_all,
      State.writeOut_mem, State.writeOut_mem]
  have mixer (x : Words) : runSteps 80 { s with x := x, upc := 17#7 } =
      .next { s with x := mix x, qrCount := 80#7, upc := 97#7 } :=
    Running.runSteps_doubleRounds 10 (r := 0) (h.update x s.mem s.qrCount 17#7) rfl rfl hc
  have finish (x : Words) (m : List Host.Cell) :
      runSteps 1 { s with x := x, mem := m, qrCount := 80#7, upc := 105#7 } =
        .next (State.finish { s with x := x, mem := m, qrCount := 80#7, upc := 105#7 }) :=
    (h.update x m 80#7 105#7).runSteps_end rfl
  have run := runSteps_trans (runSteps_trans (runSteps_trans (runSteps_trans chk init) (mixer _)) (extraction _))
    (finish _ _)
  rw [run, State.finish_writeOut_update]
  rfl

/-- A wrong length ends the command at `CHK`. -/
theorem Running.runSteps_chk_error (h : Running s) (hu : s.upc = 0#7) {p : ErrParam} {actual expected : Word}
    (hl : s.lengthError = some (p, actual, expected)) :
    runSteps 1 s = .next (s.raiseInvalidLength p actual expected) :=
  runSteps_succ_of_next (n := 0) ((h.step_eq (n := 0) (by omega) hu).trans (execChk_of_error hl))

/-- The accepted `START` and the sequencer's steps after it reach the state of the command level (R76). -/
theorem runSteps_command {w : Word} (hb : s.busy = false) (hp : s.prog = urom) (hw : w.getLsbD 0 = true)
    (hi : s.inputs = [.host (.write32 0x00 w)]) :
    runSteps (1 + commandSteps s) s = .next (commandLevel (s.withInputs [])) := by
  have started : runSteps 1 s = .next (s.withInputs []).start := runSteps_succ_of_next (n := 0) (step_start hb hw hi)
  have running : Running (s.withInputs []).start := ⟨rfl, rfl, hp⟩
  refine runSteps_trans started ?_
  cases hl : s.lengthError with
  | none =>
    rw [commandSteps_of_none hl, commandLevel_of_none (s := s.withInputs []) hl]
    exact running.runSteps_urom rfl rfl hl
  | some e =>
    obtain ⟨p, actual, expected⟩ := e
    rw [commandSteps_of_error hl, commandLevel_of_error (s := s.withInputs []) hl]
    exact running.runSteps_chk_error rfl hl

end Sys2Proof.Machine
end

section
/-! The statements about `DERIVEKEY`, `CHK` and whole commands (`40_derivekey_validate.md` R71 to R75). -/

namespace Sys2Proof.Machine

/-- Settles O9: `exec` of the command by `BUSY`, and for the pending write of `CTRL` the host port's two cases, a busy
core dropping the write just as it drops the command. -/
theorem startIsAcceptedWhileIdle : Obligations.StartIsAcceptedWhileIdle := by
  intro s
  have dropped (t : State) (hb : t.busy = true) : exec .deriveKey t = .next t := if_pos hb
  have accepted (hb : s.busy = false) : exec .deriveKey s = .next s.start := if_neg (by simp [hb])
  refine ⟨dropped s, accepted, fun w rest hw hi => ?_⟩
  rw [step_host hi]
  cases hb : s.busy with
  | true =>
    exact (hostAccess_ctrl_ignored (s := s.withInputs rest) (.inr hb)).trans (dropped (s.withInputs rest) hb).symm
  | false => exact hostAccess_ctrl_start hw hb

/-- Settles O10, by the first mismatch (`lengthError_eq_some_iff`), or none. -/
theorem chkComparesTheLengths : Obligations.ChkComparesTheLengths := by
  refine fun s => ⟨fun ho => ?output, fun ho hk => ?inputKey, fun ho hk hn => ?nonce, fun ho hk hn hu => ?right⟩
  case output => exact execChk_of_error (State.lengthError_eq_some_iff.2 (.inl ⟨ho, rfl⟩))
  case inputKey => exact execChk_of_error (State.lengthError_eq_some_iff.2 (.inr (.inl ⟨ho, hk, rfl⟩)))
  case nonce => exact execChk_of_error (State.lengthError_eq_some_iff.2 (.inr (.inr ⟨ho, hk, hn, rfl⟩)))
  case right => exact execChk_of_none (State.lengthError_none.2 ⟨ho, hk, hn⟩) hu

/-- Settles O32: the run reaches the command level's success transition, whose fields `succeeded_fields` lists. -/
theorem commandDerivesTheKey : Obligations.CommandDerivesTheKey := by
  intro s w hb hp hw hi ho hk hn
  have hl : s.lengthError = none := State.lengthError_none.2 ⟨ho, hk, hn⟩
  have run := runSteps_command hb hp hw hi
  rw [commandSteps_of_none hl] at run
  obtain ⟨hout, hbusy, hdone, herror, hparam, hactual, hexpected, hqr, hupc, hx, -, hol, hkl, hnl, hinputs⟩ :=
    State.succeeded_fields (s.withInputs []) _ _ _ (commandLevel_of_none (s := s.withInputs []) hl)
  exact ⟨_, run, hout, hbusy, hdone, herror, hparam, hactual, hexpected, hqr, hupc, hx,
    State.key_congr hinputs, State.nonce_congr hinputs, hol, hkl, hnl⟩

/-- Settles O33: the run reaches the command level's error transition, which writes the status, the record and the two
counters only. -/
theorem failedCommandTouchesNothing : Obligations.FailedCommandTouchesNothing := by
  intro s w p actual expected hb hp hw hi hwrong
  have hl : s.lengthError = some (p, actual, expected) := State.lengthError_eq_some_iff.2 hwrong
  have run := runSteps_command hb hp hw hi
  rw [commandSteps_of_error hl, commandLevel_of_error (s := s.withInputs []) hl] at run
  exact run

/-- Settles O34: the two cores have the same length check, and by its outcome both end as O32 or both as O33 says, where
every field compared is a function of the lengths, `KEY` and `NONCE`. -/
theorem commandDependsOnItsInputsOnly : Obligations.CommandDependsOnItsInputsOnly := by
  intro s s' w w' hb hb' hp hp' hw hw' hi hi' ho hk hn hkey hnonce
  have hll : s.lengthError = s'.lengthError := State.lengthError_congr ho hk hn
  cases hl : s.lengthError with
  | none =>
    rw [commandSteps_of_none hl]
    obtain ⟨hol, hkl, hnl⟩ := State.lengthError_none.1 hl
    obtain ⟨hol', hkl', hnl'⟩ := State.lengthError_none.1 (hll ▸ hl)
    obtain ⟨t, run, out, busy, done, error, param, actual, expected, qr, upc, x, key, nonce, lens⟩ :=
      commandDerivesTheKey s w hb hp hw hi hol hkl hnl
    obtain ⟨t', run', out', busy', done', error', param', actual', expected', qr', upc', x', -⟩ :=
      commandDerivesTheKey s' w' hb' hp' hw' hi' hol' hkl' hnl'
    exact ⟨t, t', run, run', busy, busy', done.trans done'.symm, error.trans error'.symm, param.trans param'.symm,
      actual.trans actual'.symm, expected.trans expected'.symm, upc.trans upc'.symm, qr.trans qr'.symm,
      fun _ => ⟨by rw [out, out', hkey, hnonce], by rw [x, x', hkey, hnonce]⟩, key, nonce, lens⟩
  | some e =>
    rw [commandSteps_of_error hl]
    have wrong := State.lengthError_eq_some_iff.1 hl
    have wrong' := State.lengthError_eq_some_iff.1 (hll ▸ hl)
    exact ⟨_, _, failedCommandTouchesNothing s w _ _ _ hb hp hw hi wrong,
      failedCommandTouchesNothing s' w' _ _ _ hb' hp' hw' hi' wrong',
      rfl, rfl, rfl, rfl, rfl, rfl, rfl, rfl, rfl, nofun, rfl, rfl, rfl, rfl, rfl⟩

end Sys2Proof.Machine
end

section
/-! The rules of the micro-operations that load one word of `X`: what each answers, and the values of its operand
(`41_init_unpack.md` R81, R82; `30_encoding.md` R59). -/

namespace Sys2Proof.Machine

variable {s : State}

/-- The constants of R7, in the order of their index. -/
theorem constWord_eq_getElem (k : Fin 4) :
    constWord k = #v[0x61707865#32, 0x3320646e#32, 0x79622d32#32, 0x6b206574#32][k] := by
  revert k; decide

/-- The value of a slice in base `2^8`, its first byte the least significant (R32, R82). -/
theorem State.readWordLE_eq_ofNat (s : State) (a : Nat) : s.readWordLE a =
    BitVec.ofNat 32 ((s.readByte a).toNat + 2 ^ 8 * (s.readByte (a + 1)).toNat
      + 2 ^ 16 * (s.readByte (a + 2)).toNat + 2 ^ 24 * (s.readByte (a + 3)).toNat) := by
  rw [← le32_toNat, BitVec.ofNat_toNat, BitVec.setWidth_eq]
  rfl

theorem sliceInBuffer_nonce_eq_false {wo : Fin 8} (h : 4 ≤ wo.val) : sliceInBuffer .nonce wo = false :=
  decide_eq_false (Nat.not_lt.2 h)

theorem execLdc_of_ne (i : Idx) (k : Fin 4) (hu : s.upc ≠ 127#7) :
    execLdc i k s = .next (s.writeX i (constWord k)).bumpUpc :=
  State.advance_of_ne (s := s.writeX i (constWord k)) hu

theorem execUnpk_of_inBuffer (i : Idx) {src : Source} {wo : Fin 8} (hs : sliceInBuffer src wo = true)
    (hu : s.upc ≠ 127#7) :
    execUnpk i src wo s = .next (s.writeX i (s.readWordLE (sliceAddr src wo))).bumpUpc := by
  unfold execUnpk
  rw [if_pos hs]
  exact State.advance_of_ne (s := s.writeX i _) hu

theorem execUnpk_of_outside (i : Idx) {src : Source} {wo : Fin 8} (hs : sliceInBuffer src wo = false) :
    execUnpk i src wo s = .refused (.reservedWord .nonceOffset) := by
  unfold execUnpk
  rw [hs]
  rfl

end Sys2Proof.Machine
end

section
/-! The statements about `LDC` and `UNPK` (`41_init_unpack.md` R81, R82). -/

namespace Sys2Proof.Machine

/-- Settles O12, by the rule of `LDC` and the table of constants. -/
theorem ldcLoadsAConstant : Obligations.LdcLoadsAConstant := by
  intro i k s hu
  rw [← constWord_eq_getElem]
  exact execLdc_of_ne i k hu

/-- Settles O13: a slice inside its buffer is loaded, its value in base `2^8` and its offset by the source; one outside
`NONCE` is refused. -/
theorem unpkReadsLittleEndian : Obligations.UnpkReadsLittleEndian := by
  refine fun i src wo s => ⟨fun hs hu => ?loaded, fun hsrc hwo => ?refused⟩
  case loaded =>
    rw [← State.readWordLE_eq_ofNat]
    cases src with
    | key => exact execUnpk_of_inBuffer i hs hu
    | nonce => exact execUnpk_of_inBuffer i hs hu
  case refused =>
    subst hsrc
    exact execUnpk_of_outside i (sliceInBuffer_nonce_eq_false hwo)

end Sys2Proof.Machine
end

section
/-! The rules of `QR`: its three answers, and what its write-back leaves in `X` (`42_state_mixer.md` R90;
`30_encoding.md` R59). -/

namespace Sys2Proof.Machine

variable {s : State} {a b c d : Idx}

theorem pairwiseDistinct_eq_false_iff :
    pairwiseDistinct a b c d = false ↔ a = b ∨ a = c ∨ a = d ∨ b = c ∨ b = d ∨ c = d := by
  unfold pairwiseDistinct
  rw [decide_eq_false_iff_not]
  tauto

theorem execQr_of_distinct (distinct : pairwiseDistinct a b c d = true) (hq : s.qrCount ≠ 127#7)
    (hu : s.upc ≠ 127#7) :
    execQr a b c d s = .next (s.writeQuad a b c d (qrf (s.readQuad a b c d))).countQr.bumpUpc := by
  unfold execQr
  rw [if_pos distinct, if_neg hq]
  exact State.advance_of_ne (s := (s.writeQuad a b c d _).countQr) hu

theorem execQr_of_count_full (distinct : pairwiseDistinct a b c d = true) (hq : s.qrCount = 127#7) :
    execQr a b c d s = .refused .qrCountOverflow := by
  unfold execQr
  rw [if_pos distinct, if_pos hq]

theorem execQr_of_repeated (repeated : pairwiseDistinct a b c d = false) :
    execQr a b c d s = .refused (.reservedWord .equalIndices) := by
  unfold execQr
  rw [repeated]
  rfl

/-- The four words written back are read again: no write of `QR` hits another's word. -/
theorem State.readQuad_writeQuad (distinct : pairwiseDistinct a b c d = true) (q : Quad) :
    (s.writeQuad a b c d q).readQuad a b c d = q := by
  have ⟨hab, hac, had, hbc, hbd, hcd⟩ := of_decide_eq_true distinct
  simp [State.readQuad, State.readX_writeQuad s distinct, hab.symm, hac.symm, had.symm, hbc.symm, hbd.symm, hcd.symm]

theorem State.readX_writeQuad_of_ne (distinct : pairwiseDistinct a b c d = true) (q : Quad) {j : Idx}
    (ha : j ≠ a) (hb : j ≠ b) (hc : j ≠ c) (hd : j ≠ d) : (s.writeQuad a b c d q).readX j = s.readX j := by
  rw [State.readX_writeQuad s distinct, if_neg ha, if_neg hb, if_neg hc, if_neg hd]

end Sys2Proof.Machine
end

section
/-! The statement about `QR` (`42_state_mixer.md` R90). -/

namespace Sys2Proof.Machine

/-- Settles O14: the form with distinct indices writes back the quarter-round of the four words read, or is refused at a
full count; the form with a repeated index is refused. -/
theorem qrAppliesTheQuarterRound : Obligations.QrAppliesTheQuarterRound := by
  refine fun a b c d s => ⟨fun hab hac had hbc hbd hcd hq hu => ?applied,
    fun hab hac had hbc hbd hcd hq => ?countFull, fun repeated => ?repeated⟩
  case applied =>
    have distinct : pairwiseDistinct a b c d = true := decide_eq_true ⟨hab, hac, had, hbc, hbd, hcd⟩
    exact ⟨_, execQr_of_distinct distinct hq hu, rfl, State.readQuad_writeQuad distinct _,
      fun _ => State.readX_writeQuad_of_ne distinct _⟩
  case countFull => exact execQr_of_count_full (decide_eq_true ⟨hab, hac, had, hbc, hbd, hcd⟩) hq
  case repeated => exact execQr_of_repeated (pairwiseDistinct_eq_false_iff.2 repeated)

end Sys2Proof.Machine
end

section
/-! The rules of `PACK`: its answer, and the bytes it leaves in memory (`20_memory.md` R33; `43_extract_pack.md`
R102). -/

namespace Sys2Proof.Machine

variable {s : State}

/-- A byte of a word is its digit in base `2^8` (R33). -/
theorem byteOfWord_toNat (w : Word) (n : Nat) : (byteOfWord w n).toNat = w.toNat / 2 ^ (8 * n) % 2 ^ 8 := by
  unfold byteOfWord
  rw [BitVec.extractLsb'_toNat, Nat.shiftRight_eq_div_pow]

theorem State.readByte_writeWordLE_slice (s : State) (a : Nat) (w : Word) {n : Nat} (hn : n < 4) :
    (s.writeWordLE a w).readByte (a + n) = byteOfWord w n := by
  rw [State.readByte_writeWordLE, if_pos (by omega), Nat.add_sub_cancel_left]

theorem State.readByte_writeWordLE_of_outside {a c : Nat} (h : c < a ∨ a + 4 ≤ c) (w : Word) :
    (s.writeWordLE a w).readByte c = s.readByte c := by
  rw [State.readByte_writeWordLE, if_neg (by omega)]

theorem execPack_of_ne (i : Idx) (wo : Fin 8) (hu : s.upc ≠ 127#7) :
    execPack i wo s = .next (s.writeWordLE (outAddr wo) (s.readX i)).bumpUpc :=
  State.advance_of_ne (s := s.writeWordLE _ _) hu

end Sys2Proof.Machine
end

section
/-! The statement about `PACK` (`43_extract_pack.md` R102). -/

namespace Sys2Proof.Machine

/-- Settles O15: the answer stores `X[i]` at the slice's offset, and a byte it reads lies in the slice, where it is a
digit of the word, or outside, where it is the old one. -/
theorem packWritesLittleEndian : Obligations.PackWritesLittleEndian := by
  refine fun i wo s hu => ⟨_, execPack_of_ne i wo hu, rfl, fun n hn => ?stored, fun a ha => ?kept⟩
  case stored =>
    have stored : (s.writeWordLE (outAddr wo) (s.readX i)).readByte (outAddr wo + n) = byteOfWord (s.readX i) n :=
      s.readByte_writeWordLE_slice _ _ hn
    exact (congrArg BitVec.toNat stored).trans (byteOfWord_toNat (s.readX i) n)
  case kept => exact State.readByte_writeWordLE_of_outside (a := outAddr wo) ha (s.readX i)

end Sys2Proof.Machine
end

section
/-! The rules of the datapath's word operations: the value and the bits of each, and that `rotl32` is the library's
rotate (`44_quarter_round.md` R110 to R112). -/

namespace Sys2Proof.Machine

/-- The carry out of bit 31 is dropped (R110). -/
theorem add32_toNat (x y : Word) : (add32 x y).toNat = (x.toNat + y.toNat) % 2 ^ 32 := BitVec.toNat_add x y

theorem xor32_getLsbD (x y : Word) (i : Nat) : (xor32 x y).getLsbD i = (x.getLsbD i ^^ y.getLsbD i) :=
  BitVec.getLsbD_xor

/-- The four cases of one bit (R111). -/
theorem toNat_bool_xor : ∀ p q : Bool, (p ^^ q).toNat = (p.toNat + q.toNat) % 2 := by decide

/-- On its domain of amounts `rotl32` is the library's rotate, which reduces the amount modulo 32. -/
theorem rotl32_eq_rotateLeft (x : Word) {n : Nat} (h : 1 ≤ n ∧ n ≤ 31) : rotl32 x n h = x.rotateLeft n := by
  have amount : n % 32 = n := Nat.mod_eq_of_lt (Nat.lt_succ_of_le h.2)
  rw [BitVec.rotateLeft_def, amount]
  rfl

/-- The two shifts as arithmetic of naturals: a product cut to 32 bits, and a quotient, so zeros enter at the top
(R112). -/
theorem rotl32_toNat (x : Word) {n : Nat} (h : 1 ≤ n ∧ n ≤ 31) :
    (rotl32 x n h).toNat = (x.toNat * 2 ^ n) % 2 ^ 32 ||| x.toNat / 2 ^ (32 - n) := by
  unfold rotl32
  rw [BitVec.toNat_or, BitVec.toNat_shiftLeft, BitVec.toNat_ushiftRight, Nat.shiftLeft_eq, Nat.shiftRight_eq_div_pow]

/-- The low `n` bits of the result are the high `n` bits of the word. -/
theorem rotl32_getLsbD_of_lt (x : Word) {n j : Nat} (h : 1 ≤ n ∧ n ≤ 31) (hj : j < n) :
    (rotl32 x n h).getLsbD j = x.getLsbD (32 - n + j) := by
  rw [rotl32_eq_rotateLeft, BitVec.getLsbD_rotateLeft_of_le (by omega), decide_eq_true hj, cond_true]

/-- The other bits of the result are the low `32 - n` bits of the word. -/
theorem rotl32_getLsbD_of_ge (x : Word) {n j : Nat} (h : 1 ≤ n ∧ n ≤ 31) (hn : n ≤ j) (hj : j < 32) :
    (rotl32 x n h).getLsbD j = x.getLsbD (j - n) := by
  rw [rotl32_eq_rotateLeft, BitVec.getLsbD_rotateLeft_of_le (by omega), decide_eq_false (Nat.not_lt.2 hn), cond_false,
    decide_eq_true hj, Bool.true_and]

/-- Bit `i` stays below bit 32 and moves up by `n`, or wraps around to the low bits (R112). -/
theorem rotl32_getLsbD_add_mod (x : Word) {n i : Nat} (h : 1 ≤ n ∧ n ≤ 31) (hi : i < 32) :
    (rotl32 x n h).getLsbD ((i + n) % 32) = x.getLsbD i := by
  rcases Nat.lt_or_ge (i + n) 32 with stays | wraps
  · rw [Nat.mod_eq_of_lt stays, rotl32_getLsbD_of_ge x h (Nat.le_add_left n i) stays, Nat.add_sub_cancel]
  · have position : (i + n) % 32 = i + n - 32 := by omega
    have source : 32 - n + (i + n - 32) = i := by omega
    rw [position, rotl32_getLsbD_of_lt x h (by omega), source]

end Sys2Proof.Machine
end

section
/-! The statements about the datapath's word operations and about `QRF` (`44_quarter_round.md` R110 to R113). -/

namespace Sys2Proof.Machine

/-- Settles O21, by the value of the two shifts and by whether bit `i` wraps around. -/
theorem rotateMovesEveryBit : Obligations.RotateMovesEveryBit :=
  fun x _ h => ⟨rotl32_toNat x h, fun _ hi => rotl32_getLsbD_add_mod x h hi⟩

/-- Settles O20, by the value of the sum and the table of exclusive or on one bit. -/
theorem addWrapsAndXorAddsBits : Obligations.AddWrapsAndXorAddsBits := by
  refine ⟨add32_toNat, fun x y i _ => ?bit⟩
  case bit => rw [xor32_getLsbD, toNat_bool_xor]

/-- Settles O23: each `rotl32` of the twelve statements is the library's rotate, and the trace's result is computed. -/
theorem quarterRoundIsItsTwelveStatements : Obligations.QuarterRoundIsItsTwelveStatements := by
  refine ⟨fun a b c d => ?statements, ?trace⟩
  case statements => simp only [qrf, add32, xor32, rotl32_eq_rotateLeft]
  case trace => decide

end Sys2Proof.Machine
end

section
/-! Several instances of the core (`60_exceptions.md` R133): a step of one instance is a step of its own state, put back
in its own place. -/

namespace Sys2Proof.Machine

/-- What a step of one instance can do: the step rule of its state answers, and nothing else is replaced. -/
theorem instancesStep_eq_next_iff {n : Nat} {k : Fin n} {ss ts : Instances n} :
    instancesStep k ss = .next ts ↔ ∃ t, step ss[k] = .next t ∧ ts = ss.set k t := by
  unfold instancesStep
  cases step ss[k] with
  | next t => simp [eq_comm]
  | fault f => simp
  | refused r => simp

/-- Settles O53: the second instance's step reads a state that the first one's left as it was, and the two states are
put back in different places, where the order does not matter. -/
theorem instancesAreIndependent : Obligations.InstancesAreIndependent := by
  intro n ss ts us j k hjk stepsJ
  have places : j.val ≠ k.val := Fin.val_ne_of_ne hjk
  obtain ⟨t, stepJ, rfl⟩ := instancesStep_eq_next_iff.1 stepsJ
  have keepsK : (ss.set j t)[k] = ss[k] := Vector.getElem_set_ne j.isLt k.isLt places
  refine ⟨keepsK, fun stepsK => ?commute⟩
  case commute =>
    obtain ⟨u, stepK, rfl⟩ := instancesStep_eq_next_iff.1 stepsK
    have keepsJ : (ss.set k u)[j] = ss[j] := Vector.getElem_set_ne k.isLt j.isLt places.symm
    have kFirst : instancesStep k ss = .next (ss.set k u) :=
      instancesStep_eq_next_iff.2 ⟨u, keepsK ▸ stepK, rfl⟩
    have thenJ : instancesStep j (ss.set k u) = .next ((ss.set j t).set k u) :=
      instancesStep_eq_next_iff.2 ⟨t, keepsJ ▸ stepJ, Vector.set_comm t u places⟩
    exact ⟨ss.set k u, kFirst, thenJ⟩

end Sys2Proof.Machine
end

section
/-! The value of an encoded instruction, and the decoder's answers as an equation of values (`30_encoding.md` R53 to
R57, R64). -/

namespace Sys2Proof

/-- The value of an instruction's encoding: the opcode and each operand at its place. -/
def Instr.value : Instr → Nat
  | .deriveKey => 1
  | .chk => 1 * 2 ^ 28
  | .ldc i k => 2 * 2 ^ 28 + i.val * 2 ^ 12 + k.val
  | .unpk i .key wo => 3 * 2 ^ 28 + i.val * 2 ^ 12 + wo.val
  | .unpk i .nonce wo => 3 * 2 ^ 28 + i.val * 2 ^ 12 + 2 ^ 8 + wo.val
  | .qr a b c d => 4 * 2 ^ 28 + a.val * 2 ^ 12 + b.val * 2 ^ 8 + c.val * 2 ^ 4 + d.val
  | .pack i wo => 5 * 2 ^ 28 + i.val * 2 ^ 12 + wo.val
  | .endOp => 6 * 2 ^ 28

/-- Fields that do not overlap are added. -/
theorem toNat_or_eq_add {u v : Word} (k : Nat) (hu : u.toNat % 2 ^ k = 0) (hv : v.toNat < 2 ^ k) :
    (u ||| v).toNat = u.toNat + v.toNat := by
  obtain ⟨m, hm⟩ := Nat.dvd_of_mod_eq_zero hu
  rw [BitVec.toNat_or, hm, Nat.two_pow_add_eq_or_of_lt hv]

theorem toNat_ofNat_fin {n : Nat} (hn : n ≤ 2 ^ 32) (k : Fin n) : (BitVec.ofNat 32 k.val).toNat = k.val :=
  Nat.mod_eq_of_lt (by omega)

theorem putIdx_toNat (i : Idx) {lo : Nat} (h : lo ≤ 28) : (putIdx i lo).toNat = i.val * 2 ^ lo := by
  have hlt : i.val * 2 ^ lo < 2 ^ 32 := calc
    i.val * 2 ^ lo < 2 ^ 4 * 2 ^ lo := Nat.mul_lt_mul_of_pos_right i.isLt (Nat.two_pow_pos lo)
    _ = 2 ^ (4 + lo) := (Nat.pow_add 2 4 lo).symm
    _ ≤ 2 ^ 32 := Nat.pow_le_pow_right (by decide) (by omega)
  rw [putIdx, BitVec.toNat_shiftLeft, toNat_ofNat_fin (by decide), Nat.shiftLeft_eq, Nat.mod_eq_of_lt hlt]

/-- The formats C, U, Q and P share the opcode and the index in bits 15:12; the rest lies below. -/
theorem toNat_opcode_idx_low {op low : Word} (i : Idx) (hop : op.toNat % 2 ^ 16 = 0) (hlow : low.toNat < 2 ^ 12) :
    (op ||| putIdx i 12 ||| low).toNat = op.toNat + i.val * 2 ^ 12 + low.toNat := by
  have hi : (putIdx i 12).toNat = i.val * 2 ^ 12 := putIdx_toNat i (by decide)
  have high : (op ||| putIdx i 12).toNat = op.toNat + i.val * 2 ^ 12 := by
    rw [toNat_or_eq_add 16 hop (by omega), hi]
  rw [toNat_or_eq_add 12 (by omega) hlow, high]

/-- `encode` is the sum of the fields at their places. -/
theorem encode_toNat (i : Instr) : (encode i).toNat = i.value := by
  cases i with
  | deriveKey | chk | endOp => rfl
  | ldc i k =>
    have hk : (BitVec.ofNat 32 k.val).toNat = k.val := toNat_ofNat_fin (by decide) _
    exact (toNat_opcode_idx_low i rfl (by omega)).trans (by rw [hk]; rfl)
  | pack i wo =>
    have hwo : (BitVec.ofNat 32 wo.val).toNat = wo.val := toNat_ofNat_fin (by decide) _
    exact (toNat_opcode_idx_low i rfl (by omega)).trans (by rw [hwo]; rfl)
  | unpk i src wo =>
    have hwo : (BitVec.ofNat 32 wo.val).toNat = wo.val := toNat_ofNat_fin (by decide) _
    have low : (putSource src ||| BitVec.ofNat 32 wo.val).toNat = (putSource src).toNat + wo.val := by
      rw [toNat_or_eq_add 8 (by cases src <;> rfl) (by omega), hwo]
    have hsrc : (putSource src).toNat ≤ 2 ^ 8 := by cases src <;> decide
    rw [encode, BitVec.or_assoc, toNat_opcode_idx_low i rfl (by omega), low]
    cases src <;> simp [Instr.value, putSource, Nat.add_assoc]
  | qr a b c d =>
    have hb := putIdx_toNat b (lo := 8) (by decide)
    have hc := putIdx_toNat c (lo := 4) (by decide)
    have hd := putIdx_toNat d (lo := 0) (by decide)
    have low : (putIdx b 8 ||| putIdx c 4 ||| putIdx d 0).toNat = b.val * 2 ^ 8 + c.val * 2 ^ 4 + d.val := by
      have mid := toNat_or_eq_add (u := putIdx b 8) (v := putIdx c 4) 8 (by omega) (by omega)
      rw [toNat_or_eq_add 4 (by omega) (by omega)]
      omega
    rw [encode, BitVec.or_assoc, BitVec.or_assoc, ← BitVec.or_assoc (putIdx b 8),
      toNat_opcode_idx_low a rfl (by omega), low]
    simp only [Instr.value, BitVec.toNat_ofNat]
    omega

end Sys2Proof
end

section
/-! The two round trips: what a word decodes to is what it encodes (`30_encoding.md` R64). -/

namespace Sys2Proof

theorem nibbleAt_eq {u : Word} {lo : Nat} {i : Idx} (h : u.toNat / 2 ^ lo % 16 = i.val) : nibbleAt u lo = i :=
  Fin.ext ((nibbleAt_val u lo).trans h)

theorem constField_val (u : Word) : (constField u).val = u.toNat % 4 := Fin.val_ofNat ..

theorem offsetField_val (u : Word) : (offsetField u).val = u.toNat % 8 := Fin.val_ofNat ..

theorem sourceField_eq (u : Word) : sourceField u = if u.toNat / 2 ^ 8 % 2 = 1 then .nonce else .key := by
  unfold sourceField
  rw [BitVec.getLsbD, Nat.testBit_eq_decide_div_mod_eq]
  simp only [decide_eq_true_eq]

theorem constField_eq {u : Word} {k : Fin 4} (h : u.toNat % 4 = k.val) : constField u = k :=
  Fin.ext ((constField_val u).trans h)

theorem offsetField_eq {u : Word} {wo : Fin 8} (h : u.toNat % 8 = wo.val) : offsetField u = wo :=
  Fin.ext ((offsetField_val u).trans h)

/-! ### Under each opcode one format is read -/

variable {u : Word} {i : Instr}

theorem decodeUop_chk (hop : u.toNat / 2 ^ 28 = 1) (h : u.toNat % 2 ^ 28 = 0) : decodeUop u = .ok .chk := by
  unfold decodeUop
  rw [if_pos ((chkPattern_iff u).2 ⟨hop, h⟩)]

theorem decodeUop_ldc (hop : u.toNat / 2 ^ 28 = 2) (hhi : u.toNat / 2 ^ 16 % 2 ^ 12 = 0)
    (h : u.toNat / 2 ^ 2 % 2 ^ 10 = 0) : decodeUop u = .ok (.ldc (nibbleAt u 12) (constField u)) := by
  simp only [decodeUop, chkPattern_iff, ldcPattern_iff, hop, hhi, h, Nat.reduceEqDiff, false_and, and_self, reduceIte]

theorem decodeUop_unpk (hop : u.toNat / 2 ^ 28 = 3) (hhi : u.toNat / 2 ^ 16 % 2 ^ 12 = 0)
    (h9 : u.toNat / 2 ^ 9 % 2 ^ 3 = 0) (h3 : u.toNat / 2 ^ 3 % 2 ^ 5 = 0) : decodeUop u = decodeUnpk u := by
  simp only [decodeUop, chkPattern_iff, ldcPattern_iff, unpkPattern_iff, hop, hhi, h9, h3,
    Nat.reduceEqDiff, false_and, and_self, reduceIte]

theorem decodeUop_qr (hop : u.toNat / 2 ^ 28 = 4) (hhi : u.toNat / 2 ^ 16 % 2 ^ 12 = 0) :
    decodeUop u = decodeQr u := by
  simp only [decodeUop, chkPattern_iff, ldcPattern_iff, unpkPattern_iff, qrPattern_iff, hop, hhi,
    Nat.reduceEqDiff, false_and, and_self, reduceIte]

theorem decodeUop_pack (hop : u.toNat / 2 ^ 28 = 5) (hhi : u.toNat / 2 ^ 16 % 2 ^ 12 = 0)
    (h : u.toNat / 2 ^ 3 % 2 ^ 9 = 0) : decodeUop u = .ok (.pack (nibbleAt u 12) (offsetField u)) := by
  simp only [decodeUop, chkPattern_iff, ldcPattern_iff, unpkPattern_iff, qrPattern_iff, packPattern_iff,
    hop, hhi, h, Nat.reduceEqDiff, false_and, and_self, reduceIte]

theorem decodeUop_end (hop : u.toNat / 2 ^ 28 = 6) (h : u.toNat % 2 ^ 28 = 0) : decodeUop u = .ok .endOp := by
  simp only [decodeUop, chkPattern_iff, ldcPattern_iff, unpkPattern_iff, qrPattern_iff, packPattern_iff, endPattern_iff,
    hop, h, Nat.reduceEqDiff, false_and, and_self, reduceIte]

theorem decodeUnpk_of_fields {i : Idx} {src : Source} {wo : Fin 8} (hi : nibbleAt u 12 = i)
    (hs : sourceField u = src) (hwo : offsetField u = wo) (h : sliceInBuffer src wo = true) :
    decodeUnpk u = .ok (.unpk i src wo) := by
  unfold decodeUnpk
  rw [hi, hs, hwo, if_pos h]

theorem decodeQr_of_fields {a b c d : Idx} (ha : nibbleAt u 12 = a) (hb : nibbleAt u 8 = b)
    (hc : nibbleAt u 4 = c) (hd : nibbleAt u 0 = d) (h : pairwiseDistinct a b c d = true) :
    decodeQr u = .ok (.qr a b c d) := by
  unfold decodeQr
  rw [ha, hb, hc, hd, if_pos h]

theorem decodeUnpk_ok (h : decodeUnpk u = .ok i) : i = .unpk (nibbleAt u 12) (sourceField u) (offsetField u) := by
  unfold decodeUnpk at h
  split at h
  · cases h; rfl
  · cases h

theorem decodeQr_ok (h : decodeQr u = .ok i) :
    i = .qr (nibbleAt u 12) (nibbleAt u 8) (nibbleAt u 4) (nibbleAt u 0) := by
  unfold decodeQr at h
  split at h
  · cases h; rfl
  · cases h

/-! ### Decoding and values -/

/-- A word that decodes has the value of its instruction: test by test of the decoder, the pattern met fixes the bits
that no field reads. -/
theorem toNat_eq_value_of_decodeUop (h : decodeUop u = .ok i) : u.toNat = i.value := by
  unfold decodeUop at h
  simp only [chkPattern_iff, ldcPattern_iff, unpkPattern_iff, qrPattern_iff, packPattern_iff, endPattern_iff] at h
  split at h
  case isTrue hp => cases h; simp only [Instr.value]; omega
  split at h
  case isTrue hp => cases h; simp only [Instr.value, nibbleAt_val, constField_val]; omega
  split at h
  case isTrue hp =>
    rw [decodeUnpk_ok h, sourceField_eq]
    split <;> simp only [Instr.value, nibbleAt_val, offsetField_val] <;> omega
  split at h
  case isTrue hp =>
    rw [decodeQr_ok h]; simp only [Instr.value, nibbleAt_val]; omega
  split at h
  case isTrue hp => cases h; simp only [Instr.value, nibbleAt_val, offsetField_val]; omega
  split at h
  case isTrue hp => cases h; simp only [Instr.value]; omega
  split at h <;> cases h

/-- A word with the value of a well-formed micro-operation decodes to it. -/
theorem decodeUop_of_toNat_eq_value (hi : i.isUop = true) (hw : i.wellFormed = true)
    (h : u.toNat = i.value) : decodeUop u = .ok i := by
  cases i with
  | deriveKey => cases hi
  | chk =>
    have hu : u.toNat = 1 * 2 ^ 28 := h
    exact decodeUop_chk (by omega) (by omega)
  | ldc i k =>
    have hu : u.toNat = 2 * 2 ^ 28 + i.val * 2 ^ 12 + k.val := h
    rw [decodeUop_ldc (by omega) (by omega) (by omega), nibbleAt_eq (i := i) (by omega),
      constField_eq (k := k) (by omega)]
  | unpk i src wo =>
    cases src with
    | key =>
      have hu : u.toNat = 3 * 2 ^ 28 + i.val * 2 ^ 12 + wo.val := h
      have hs : sourceField u = .key := by rw [sourceField_eq, if_neg (by omega)]
      exact (decodeUop_unpk (by omega) (by omega) (by omega) (by omega)).trans
        (decodeUnpk_of_fields (nibbleAt_eq (by omega)) hs (offsetField_eq (by omega)) hw)
    | nonce =>
      have hu : u.toNat = 3 * 2 ^ 28 + i.val * 2 ^ 12 + 2 ^ 8 + wo.val := h
      have hs : sourceField u = .nonce := by rw [sourceField_eq, if_pos (by omega)]
      exact (decodeUop_unpk (by omega) (by omega) (by omega) (by omega)).trans
        (decodeUnpk_of_fields (nibbleAt_eq (by omega)) hs (offsetField_eq (by omega)) hw)
  | qr a b c d =>
    have hu : u.toNat = 4 * 2 ^ 28 + a.val * 2 ^ 12 + b.val * 2 ^ 8 + c.val * 2 ^ 4 + d.val := h
    exact (decodeUop_qr (by omega) (by omega)).trans
      (decodeQr_of_fields (nibbleAt_eq (by omega)) (nibbleAt_eq (by omega)) (nibbleAt_eq (by omega))
        (nibbleAt_eq (by omega)) hw)
  | pack i wo =>
    have hu : u.toNat = 5 * 2 ^ 28 + i.val * 2 ^ 12 + wo.val := h
    rw [decodeUop_pack (by omega) (by omega) (by omega), nibbleAt_eq (i := i) (by omega),
      offsetField_eq (wo := wo) (by omega)]
  | endOp =>
    have hu : u.toNat = 6 * 2 ^ 28 := h
    exact decodeUop_end (by omega) (by omega)

/-- The round trip of R64 in the sequencer's space. -/
theorem decodeUop_encode (hi : i.isUop = true) (hw : i.wellFormed = true) : decodeUop (encode i) = .ok i :=
  decodeUop_of_toNat_eq_value hi hw (encode_toNat i)

theorem tableWord_toNat (u : Word) : tableWord 32 u.toNat = u := by
  rw [tableWord, Nat.mod_eq_of_lt u.isLt, BitVec.ofNat_toNat, BitVec.setWidth_eq]

/-- A word that decodes to a micro-operation is read as one in the opcode table (log 12). -/
theorem decodeTableWord_of_decodeUop (h : decodeUop u = .ok i) : decodeTableWord 32 u.toNat = some i := by
  simp [decodeTableWord, tableWord_toNat, inUopSpace, h, Decoded.instr?]

end Sys2Proof
end

section
/-! The statements about the round trips and about words written out from the formats (`30_encoding.md` R51 to R57,
R64). -/

namespace Sys2Proof.Machine

/-- Settles O2: the value of the encoding has every operand at its place, so each format's pattern and fields are read
back; the command's word meets no pattern. -/
theorem decodeOfEncode : Obligations.DecodeOfEncode := by
  refine ⟨fun i => decodeUop_encode, rfl, fun i hw => ?table⟩
  case table =>
    cases hi : i.isUop with
    | true => exact decodeTableWord_of_decodeUop (decodeUop_encode hi hw)
    | false =>
      cases i with
      | deriveKey => decide
      | chk | ldc | unpk | qr | pack | endOp => cases hi

/-- Settles O3: the word and the encoding have one value. -/
theorem encodeOfDecode : Obligations.EncodeOfDecode := fun _ i h =>
  BitVec.eq_of_toNat_eq ((encode_toNat i).trans (toNat_eq_value_of_decodeUop h).symm)

/-- Settles O1, word by word. -/
theorem specWordsDecode : Obligations.SpecWordsDecode := by
  unfold Obligations.SpecWordsDecode
  decide

end Sys2Proof.Machine
end

section
/-! What an instruction leaves: the words it does not write, the bytes it does not store to, and all other fields
(`41_init_unpack.md` R81, R82; `42_state_mixer.md` R90; `43_extract_pack.md` R102). -/

namespace Sys2Proof.Machine

variable {s t : State} {i : Instr}

theorem State.readX_writeX_of_ne (s : State) {i j : Idx} (h : j ≠ i) (v : Word) :
    (s.writeX i v).readX j = s.readX j := by
  rw [State.readX_writeX, if_neg h]

/-- An instruction changes no word of `X` but its destinations. -/
theorem exec_readX (h : exec i s = .next t) {j : Idx} (hj : j ∉ writesX i) : t.readX j = s.readX j := by
  cases i with
  | deriveKey => rcases execDeriveKey_next h with ⟨-, rfl⟩ | ⟨-, rfl⟩ <;> rfl
  | chk => rcases execChk_next h with ⟨_, _, _, -, rfl⟩ | ⟨-, -, rfl⟩ <;> rfl
  | ldc x k =>
    obtain ⟨-, rfl⟩ := execLdc_next h
    exact s.readX_writeX_of_ne (List.ne_of_not_mem_cons hj) _
  | unpk x src wo =>
    obtain ⟨-, -, rfl⟩ := execUnpk_next h
    exact s.readX_writeX_of_ne (List.ne_of_not_mem_cons hj) _
  | qr a b c d =>
    obtain ⟨distinct, -, -, rfl⟩ := execQr_next h
    simp only [writesX, List.mem_cons, List.not_mem_nil, or_false, not_or] at hj
    obtain ⟨ha, hb, hc, hd⟩ := hj
    exact State.readX_writeQuad_of_ne distinct _ ha hb hc hd
  | pack x wo => obtain ⟨-, rfl⟩ := execPack_next h; rfl
  | endOp => obtain rfl := execEnd_next h; rfl

theorem storesAt_eq_some {base : Nat} (h : storesAt i = some base) :
    ∃ x wo, i = .pack x wo ∧ base = outAddr wo := by
  cases i with
  | pack x wo => exact ⟨x, wo, rfl, (Option.some.inj h).symm⟩
  | deriveKey | chk | ldc | unpk | qr | endOp => cases h

theorem storesAt_of_writesX (h : writesX i ≠ []) : storesAt i = none := by
  cases i with
  | pack x wo => exact absurd rfl h
  | deriveKey | chk | ldc | unpk | qr | endOp => rfl

/-- An instruction changes no byte of memory but the four it stores to. -/
theorem exec_readByte (h : exec i s = .next t) {a : Nat}
    (ha : ∀ base, storesAt i = some base → a < base ∨ base + 4 ≤ a) : t.readByte a = s.readByte a := by
  cases i with
  | deriveKey => rcases execDeriveKey_next h with ⟨-, rfl⟩ | ⟨-, rfl⟩ <;> rfl
  | chk => rcases execChk_next h with ⟨_, _, _, -, rfl⟩ | ⟨-, -, rfl⟩ <;> rfl
  | ldc x k => obtain ⟨-, rfl⟩ := execLdc_next h; rfl
  | unpk x src wo => obtain ⟨-, -, rfl⟩ := execUnpk_next h; rfl
  | qr a b c d => obtain ⟨-, -, -, rfl⟩ := execQr_next h; rfl
  | pack x wo =>
    obtain ⟨-, rfl⟩ := execPack_next h
    exact State.readByte_writeWordLE_of_outside (ha _ rfl) _
  | endOp => obtain rfl := execEnd_next h; rfl

/-- What an instruction adds to `QR_COUNT` (R90). -/
def qrStep : Instr → BitVec 7
  | .qr _ _ _ _ => 1#7
  | .deriveKey | .chk | .ldc _ _ | .unpk _ _ _ | .pack _ _ | .endOp => 0#7

theorem qrStep_of_not_qr (h : ∀ a b c d, i ≠ .qr a b c d) : qrStep i = 0#7 := by
  cases i with
  | qr a b c d => exact absurd rfl (h a b c d)
  | deriveKey | chk | ldc | unpk | pack | endOp => rfl

/-- A micro-operation that goes on to the next word writes `X`, the memory, `QR_COUNT` and `UPC` only, and keeps the
memory's canonical form. -/
theorem exec_advances (h : exec i s = .next t) (hstart : i ≠ .deriveKey) (hend : i ≠ .endOp)
    (hchk : i = .chk → s.lengthError = none) : ∃ x mem,
      t = { s with x := x, mem := mem, qrCount := s.qrCount + qrStep i, upc := s.upc + 1#7 } ∧
      (Memory.wf s.mem = true → Memory.wf mem = true) := by
  have unchanged : s.qrCount = s.qrCount + 0#7 := (BitVec.add_zero _).symm
  cases i with
  | deriveKey => exact absurd rfl hstart
  | endOp => exact absurd rfl hend
  | chk =>
    rcases execChk_next h with ⟨_, _, _, hl, -⟩ | ⟨-, -, rfl⟩
    · rw [hchk rfl] at hl; cases hl
    · exact ⟨s.x, s.mem, congrArg (fun q => { s with qrCount := q, upc := s.upc + 1#7 }) unchanged, id⟩
  | ldc x k =>
    obtain ⟨-, rfl⟩ := execLdc_next h
    exact ⟨_, s.mem, by rw [qrStep, ← unchanged]; rfl, id⟩
  | unpk x src wo =>
    obtain ⟨-, -, rfl⟩ := execUnpk_next h
    exact ⟨_, s.mem, by rw [qrStep, ← unchanged]; rfl, id⟩
  | qr a b c d =>
    obtain ⟨-, -, -, rfl⟩ := execQr_next h
    exact ⟨_, s.mem, rfl, id⟩
  | pack x wo =>
    obtain ⟨-, rfl⟩ := execPack_next h
    have inOut (n : Nat) (hn : n < 4) : isBufferAddr (outAddr wo + n) = true := outAddr_isBuffer wo n hn
    exact ⟨s.x, _, by rw [qrStep, ← unchanged]; rfl, State.writeWordLE_wf _ (inOut 0 (by decide))
      (inOut 1 (by decide)) (inOut 2 (by decide)) (inOut 3 (by decide))⟩

/-- `DERIVEKEY` answers in every state: the command, or nothing while one runs (R71). -/
theorem execDeriveKey_isNext (s : State) : ∃ t, exec .deriveKey s = .next t := by
  cases hb : s.busy with
  | true => exact ⟨s, if_pos hb⟩
  | false => exact ⟨s.start, if_neg (by simp [hb])⟩

/-- A well-formed instruction answers a next state unless `UPC` or `QR_COUNT` is full. -/
theorem exec_isNext (hw : i.wellFormed = true) (hu : s.upc ≠ 127#7) (hq : s.qrCount ≠ 127#7) :
    ∃ t, exec i s = .next t := by
  cases i with
  | deriveKey => exact execDeriveKey_isNext s
  | chk =>
    cases hl : s.lengthError with
    | none => exact ⟨_, execChk_of_none hl hu⟩
    | some e => exact ⟨_, execChk_of_error hl⟩
  | ldc x k => exact ⟨_, execLdc_of_ne x k hu⟩
  | unpk x src wo => exact ⟨_, execUnpk_of_inBuffer x hw hu⟩
  | qr a b c d => exact ⟨_, execQr_of_distinct hw hq hu⟩
  | pack x wo => exact ⟨_, execPack_of_ne x wo hu⟩
  | endOp => exact ⟨_, rfl⟩

end Sys2Proof.Machine
end

section
/-! The statements about what the instructions leave unchanged. -/

namespace Sys2Proof.Machine

/-- Settles O17: a form with a destination goes on to the next word, so it writes no other field; the words and bytes by
`exec_readX` and `exec_readByte`. -/
theorem registerFormsFrame : Obligations.RegisterFormsFrame := by
  intro i s t hw h
  have words : ∀ j, j ∉ writesX i → t.readX j = s.readX j := fun j => exec_readX h
  have bytes (a : Nat) : t.readByte a = s.readByte a :=
    exec_readByte h fun base hb => absurd ((storesAt_of_writesX hw).symm.trans hb) nofun
  obtain ⟨x, mem, rfl, -⟩ := exec_advances h (fun e => hw (by rw [e]; rfl)) (fun e => hw (by rw [e]; rfl))
    (fun e => absurd (by rw [e]; rfl) hw)
  exact ⟨words, bytes, rfl, rfl, rfl, rfl, rfl, rfl, rfl, rfl, rfl,
    fun hqr => by rw [qrStep_of_not_qr hqr, BitVec.add_zero], rfl, rfl, rfl, rfl⟩

/-- Settles O18: the storing form is `PACK`, which goes on to the next word and has no destination in `X`. -/
theorem storingFormFrame : Obligations.StoringFormFrame := by
  intro i base s t hs h
  obtain ⟨x, wo, rfl, rfl⟩ := storesAt_eq_some hs
  have bytes (a : Nat) (ha : a < outAddr wo ∨ outAddr wo + 4 ≤ a) : t.readByte a = s.readByte a :=
    exec_readByte h fun _ hb => Option.some.inj hb ▸ ha
  have words (j : Idx) : t.readX j = s.readX j := exec_readX h List.not_mem_nil
  obtain ⟨_, _, rfl, -⟩ := exec_advances h nofun nofun nofun
  exact ⟨bytes, words, rfl, rfl, rfl, rfl, rfl, rfl, rfl, rfl, rfl, BitVec.add_zero _, rfl, rfl, rfl, rfl⟩

/-- Settles O19: the five states a control form can answer, by the inversion lemma of each. -/
theorem controlFormsFrame : Obligations.ControlFormsFrame := by
  rintro i s t (rfl | rfl | rfl) h
  case inl =>
    rcases execDeriveKey_next h with ⟨-, rfl⟩ | ⟨-, rfl⟩ <;>
      exact ⟨fun _ => rfl, fun _ => rfl, rfl, rfl, rfl, rfl, rfl, rfl, rfl, nofun, nofun, nofun⟩
  case inr.inl =>
    rcases execChk_next h with ⟨_, _, _, hl, rfl⟩ | ⟨-, -, rfl⟩
    · exact ⟨fun _ => rfl, fun _ => rfl, rfl, rfl, rfl, rfl, rfl, rfl, rfl, fun _ => ⟨rfl, rfl⟩,
        fun _ hright => absurd (hl.symm.trans hright) nofun, nofun⟩
    · exact ⟨fun _ => rfl, fun _ => rfl, rfl, rfl, rfl, rfl, rfl, rfl, rfl, fun _ => ⟨rfl, rfl⟩,
        fun _ _ => ⟨rfl, rfl, rfl, rfl, rfl⟩, nofun⟩
  case inr.inr =>
    obtain rfl := execEnd_next h
    exact ⟨fun _ => rfl, fun _ => rfl, rfl, rfl, rfl, rfl, rfl, rfl, rfl, nofun, nofun,
      fun _ => ⟨rfl, rfl, rfl, rfl, rfl, rfl⟩⟩

end Sys2Proof.Machine
end

section
/-! A command in the hardware whose lengths are right: it goes through the words of `UROM` one by one and ends at the
last (`30_encoding.md` R60, R65; `70_reset_and_hazards.md` R150, R152). -/

namespace Sys2Proof.Machine

variable {s t : State}

/-! ### Where the micro-operations stand in `UROM` -/

theorem uromOp_wellFormed : ∀ n : Fin 106, (uromOp n.val).wellFormed = true := by decide

theorem uromOp_goesOn : ∀ n : Fin 105, uromOp n.val ≠ .deriveKey ∧ uromOp n.val ≠ .endOp := by decide

/-- The words 17 to 96 are those that count (R20, R60). -/
theorem qrsBefore_succ : ∀ n : Fin 105, qrsBefore (n.val + 1) = qrsBefore n.val + (qrStep (uromOp n.val)).toNat := by
  decide

theorem qrsBefore_le (n : Nat) : qrsBefore n ≤ 80 := Nat.min_le_right _ _

/-! ### One step of the command -/

/-- A command runs in the hardware, with the count `UROM` has at its word, and its length check passes. -/
structure State.InCommand (s : State) : Prop where
  busy : s.busy = true
  prog : s.prog = urom
  upc_le : s.upc.toNat ≤ 105
  count : s.qrCount.toNat = qrsBefore s.upc.toNat
  lengths : s.lengthError = none

theorem upc_ne_of_le (h : s.upc.toNat ≤ 105) : s.upc ≠ 127#7 := by
  intro e
  rw [e] at h
  exact absurd h (by decide)

theorem toNat_upc_succ {u : BitVec 7} (h : u.toNat < 105) : (u + 1#7).toNat = u.toNat + 1 := by
  rw [BitVec.toNat_add]
  exact Nat.mod_eq_of_lt (by show u.toNat + 1 < 128; omega)

/-- Every word before the last is followed by the next one, and the step writes `X`, the memory and the two counters
only. -/
theorem State.InCommand.sequencerStep_eq (h : s.InCommand) (hu : s.upc.toNat < 105) : ∃ x mem q,
    sequencerStep s = .next { s with x := x, mem := mem, qrCount := q, upc := s.upc + 1#7 } ∧
    (Memory.wf s.mem = true → Memory.wf mem = true) ∧ q.toNat = qrsBefore (s.upc + 1#7).toNat := by
  have hq : s.qrCount.toNat ≤ 80 := h.count ▸ qrsBefore_le _
  have hq127 : s.qrCount ≠ 127#7 := by
    intro e
    rw [e] at hq
    exact absurd hq (by decide)
  obtain ⟨hstart, hend⟩ := uromOp_goesOn ⟨s.upc.toNat, hu⟩
  obtain ⟨t, ht⟩ := exec_isNext (uromOp_wellFormed ⟨s.upc.toNat, by omega⟩) (upc_ne_of_le h.upc_le) hq127
  obtain ⟨x, mem, rfl, hwf⟩ := exec_advances ht hstart hend fun _ => h.lengths
  refine ⟨x, mem, _, (sequencerStep_urom h.busy h.prog h.upc_le).trans ht, hwf, ?_⟩
  have counts : qrsBefore (s.upc.toNat + 1) = qrsBefore s.upc.toNat + (qrStep (uromOp s.upc.toNat)).toNat :=
    qrsBefore_succ ⟨s.upc.toNat, hu⟩
  have total : qrsBefore (s.upc.toNat + 1) ≤ 80 := qrsBefore_le _
  rw [BitVec.toNat_add, h.count, toNat_upc_succ hu, ← counts]
  exact Nat.mod_eq_of_lt (by omega)

/-- The last word ends the command. -/
theorem State.InCommand.sequencerStep_end (h : s.InCommand) (hu : s.upc.toNat = 105) :
    sequencerStep s = .next s.finish := by
  rw [sequencerStep_urom h.busy h.prog h.upc_le, hu]
  rfl

theorem State.InCommand.sequencerStep_next (h : s.InCommand) (hu : s.upc.toNat < 105) :
    ∃ t, sequencerStep s = .next t ∧ t.InCommand ∧ t.inputs = s.inputs ∧ t.upc.toNat = s.upc.toNat + 1 := by
  obtain ⟨x, mem, q, hstep, -, hq⟩ := h.sequencerStep_eq hu
  have succ : (s.upc + 1#7).toNat = s.upc.toNat + 1 := toNat_upc_succ hu
  exact ⟨_, hstep, ⟨h.busy, h.prog, by show (s.upc + 1#7).toNat ≤ 105; omega, hq, h.lengths⟩, rfl, succ⟩

/-! ### The whole run -/

/-- With no event pending the command goes through the words of `UROM` one by one. -/
theorem State.InCommand.runSteps_words (n : Nat) : ∀ {s : State}, s.InCommand → s.inputs = [] → s.upc.toNat + n ≤ 105 →
    ∃ t, runSteps n s = .next t ∧ t.InCommand ∧ t.inputs = [] ∧ t.upc.toNat = s.upc.toNat + n := by
  induction n with
  | zero => exact fun h hi _ => ⟨_, rfl, h, hi, rfl⟩
  | succ n ih =>
    intro s h hi hn
    obtain ⟨r, hstep, hr, hri, hru⟩ := h.sequencerStep_next (by omega)
    obtain ⟨t, hrun, ht, hti, htu⟩ := ih hr (hri.trans hi) (by omega)
    exact ⟨t, (runSteps_succ_of_next ((step_no_inputs hi).trans hstep)).trans hrun, ht, hti, by omega⟩

/-- The command ends after its last word, and the core stays idle. -/
theorem State.InCommand.runSteps_end (h : s.InCommand) (hi : s.inputs = []) (m : Nat) :
    ∃ t, runSteps (105 - s.upc.toNat + 1 + m) s = .next t ∧ t.busy = false ∧ t.done = true ∧ t.upc = 105#7 := by
  have hle := h.upc_le
  obtain ⟨r, hrun, hr, hri, hru⟩ := State.InCommand.runSteps_words (105 - s.upc.toNat) h hi (by omega)
  have last : r.upc.toNat = 105 := by omega
  have hend : runSteps 1 r = .next r.finish :=
    runSteps_succ_of_next (n := 0) ((step_no_inputs hri).trans (hr.sequencerStep_end last))
  exact ⟨r.finish, runSteps_trans (runSteps_trans hrun hend) (runSteps_idle (s := r.finish) rfl hri m), rfl, rfl,
    BitVec.eq_of_toNat_eq last⟩

/-- The accepted `START` of an idle core of the hardware begins a command, at the first word. -/
theorem State.start_inCommand (hp : s.prog = urom) (hl : s.lengthError = none) : s.start.InCommand :=
  ⟨rfl, hp, Nat.zero_le _, rfl, hl⟩

theorem runSteps_start {w : Word} (hb : s.busy = false) (hw : w.getLsbD 0 = true)
    (hi : s.inputs = [.host (.write32 0x00 w)]) : runSteps 1 s = .next (s.withInputs []).start :=
  runSteps_succ_of_next (n := 0) (step_start hb hw hi)

end Sys2Proof.Machine
end

section
/-! The statements about the path of a command (`40_derivekey_validate.md` R76; `70_reset_and_hazards.md` R150). -/

namespace Sys2Proof.Machine

/-- Settles O31: the run to the command level's state is `runSteps_command`; before that a command with right lengths
is at one of the words of `UROM`, and one with a wrong length has only been started. -/
theorem microLevelRefinesCommandLevel : Obligations.MicroLevelRefinesCommandLevel := by
  refine fun s w hb hp hw hi => ⟨runSteps_command hb hp hw hi, fun k hk => ?notBefore⟩
  case notBefore =>
    have started := runSteps_start hb hw hi
    cases hl : s.lengthError with
    | none =>
      rw [commandSteps_of_none hl] at hk
      have command : (s.withInputs []).start.InCommand := State.start_inCommand hp hl
      obtain ⟨t, hrun, ht, -⟩ := State.InCommand.runSteps_words k command rfl (by show 0 + k ≤ 105; omega)
      exact ⟨t, runSteps_trans started hrun, ht.busy⟩
    | some e =>
      rw [commandSteps_of_error hl, Nat.lt_one_iff] at hk
      subst hk
      exact ⟨_, started, rfl⟩

/-- Settles O35: with right lengths the `k`-th step is at word `k` until the last word ends the command; with a wrong
one `CHK` ends it at word 0. -/
theorem upcPathIsDataIndependent : Obligations.UpcPathIsDataIndependent := by
  intro s w k hb hp hw hi
  have started := runSteps_start hb hw hi
  simp only [← State.lengthError_none]
  cases hl : s.lengthError with
  | none =>
    have command : (s.withInputs []).start.InCommand := State.start_inCommand hp hl
    rw [if_pos rfl]
    rcases Nat.lt_or_ge 105 k with past | within
    · obtain ⟨t, hrun, -, -, hu⟩ := command.runSteps_end rfl (k - 106)
      have steps : 105 - (0#7).toNat + 1 + (k - 106) = k := by show 105 - 0 + 1 + (k - 106) = k; omega
      rw [State.start_upc, steps] at hrun
      exact ⟨t, runSteps_trans started hrun, by rw [hu, Nat.min_eq_right (by omega)]⟩
    · obtain ⟨t, hrun, -, -, hu⟩ := State.InCommand.runSteps_words k command rfl (by show 0 + k ≤ 105; omega)
      refine ⟨t, runSteps_trans started hrun, BitVec.eq_of_toNat_eq ?_⟩
      rw [hu, Nat.min_eq_left within, BitVec.toNat_ofNat, Nat.mod_eq_of_lt (by omega)]
      exact Nat.zero_add k
  | some e =>
    obtain ⟨p, actual, expected⟩ := e
    rw [if_neg nofun]
    cases k with
    | zero => exact ⟨_, started, rfl⟩
    | succ k =>
      have running : Running (s.withInputs []).start := ⟨rfl, rfl, hp⟩
      have failed := running.runSteps_chk_error rfl hl
      rw [Nat.add_comm k 1]
      exact ⟨_, runSteps_trans started (runSteps_trans failed (runSteps_idle rfl rfl k)), rfl⟩

end Sys2Proof.Machine
end

section
/-! What a host access can answer (`20_memory.md` R37, R38). -/

namespace Sys2Proof.Machine

variable {s t : State}

/-- A write of any register answers a next state. -/
theorem writeReg_isNext (r : HostReg) (w : Word) (s : State) : ∃ t, writeReg r w s = .next t := by
  cases r with
  | ctrl =>
    cases hw : w.getLsbD 0 with
    | true => exact (execDeriveKey_isNext s).imp fun _ ht => (writeCtrl_start s hw).trans ht
    | false => exact ⟨s, writeCtrl_startClear s hw⟩
  | outLen | keyLen | nonceLen | status | errParam | errActual | errExpected | outputSize | keySize | nonceSize | upc
  | qrCount | x => exact ⟨_, rfl⟩

theorem whenIdle_isNext {e : Result} (h : ∃ t, e = .next t) (s : State) : ∃ t, whenIdle s e = .next t := by
  unfold whenIdle
  split
  · exact ⟨s, rfl⟩
  · exact h

theorem hostAccess_read8 {off : Nat} (s : State) (h : isBufferAddr off = true) :
    hostAccess (.read8 off) s = .next (s.answer (.byte (s.readByte off))) := if_pos h

theorem hostAccess_write8 {off : Nat} (b : Byte) (s : State) (h : isBufferAddr off = true) :
    hostAccess (.write8 off b) s = whenIdle s (.next (s.writeByte off b)) := if_pos h

theorem regAt_eq_none {off : Nat} (h : ¬(off % 4 = 0 ∧ (off ≤ 0x33 ∨ 0x40 ≤ off ∧ off ≤ 0x7F))) :
    regAt off = none := by
  rw [← regAt_isSome, Bool.not_eq_true, Option.isSome_eq_false_iff] at h
  exact Option.isNone_iff_eq_none.1 h

/-- The allowed shapes have a meaning in every state (R37). -/
theorem hostAccess_isNext {a : HostAccess} (h : a.allowed) (s : State) : ∃ t, hostAccess a s = .next t := by
  cases a with
  | read8 off => exact ⟨_, hostAccess_read8 s ((isBufferAddr_iff off).2 h)⟩
  | write8 off b =>
    rw [hostAccess_write8 b s ((isBufferAddr_iff off).2 h)]
    exact whenIdle_isNext ⟨_, rfl⟩ s
  | read32 off =>
    obtain ⟨r, hr⟩ := Option.isSome_iff_exists.1 ((regAt_isSome off).2 h)
    exact ⟨_, hostAccess_read32 s hr⟩
  | write32 off w =>
    obtain ⟨r, hr⟩ := Option.isSome_iff_exists.1 ((regAt_isSome off).2 h)
    rw [hostAccess_write32 w s hr]
    exact whenIdle_isNext (writeReg_isNext r w s) s
  | read16 off => exact h.elim
  | write16 off v => exact h.elim

/-- Every other shape is refused (R37), while busy too (log 9). -/
theorem hostAccess_refused {a : HostAccess} (h : ¬a.allowed) (s : State) : hostAccess a s = .refused .hostAccess := by
  cases a with
  | read8 off => exact if_neg fun hb => h ((isBufferAddr_iff off).1 hb)
  | write8 off b => exact if_neg fun hb => h ((isBufferAddr_iff off).1 hb)
  | read32 off => simp only [hostAccess, regAt_eq_none h]
  | write32 off w => simp only [hostAccess, regAt_eq_none h]
  | read16 off => rfl
  | write16 off v => rfl

/-- While a command runs a host access answers a read or changes nothing (R38). -/
theorem hostAccess_busy {a : HostAccess} (hb : s.busy = true) (h : hostAccess a s = .next t) :
    (a.isWrite = false ∧ ∃ v, t = s.answer v) ∨ (a.isWrite = true ∧ t = s) := by
  rcases hostAccess_next h with hread | hsame | ⟨hidle, -⟩
  · exact .inl hread
  · exact .inr hsame
  · rw [hb] at hidle; cases hidle

end Sys2Proof.Machine
end

section
/-! What a step keeps: the inputs, the words of `X`, the bytes of `OUT` (`10_state.md` R10 to R14). -/

namespace Sys2Proof.Machine

variable {s t : State} {i : Instr}

/-- `KEY`, `NONCE` and the three lengths are those of another state. -/
def State.InputsKept (s t : State) : Prop :=
  t.key = s.key ∧ t.nonce = s.nonce ∧ t.outLen = s.outLen ∧ t.keyLen = s.keyLen ∧ t.nonceLen = s.nonceLen

theorem State.InputsKept.refl (s : State) : s.InputsKept s := ⟨rfl, rfl, rfl, rfl, rfl⟩

/-- The bytes an instruction stores to lie in `OUT`, so no input byte is among them. -/
theorem exec_readByte_input (h : exec i s = .next t) {a : Nat} (ha : a < 0xC0) : t.readByte a = s.readByte a := by
  refine exec_readByte h fun base hb => .inl ?_
  obtain ⟨x, wo, -, rfl⟩ := storesAt_eq_some hb
  exact Nat.lt_of_lt_of_le ha (Nat.le_add_right 0xC0 _)

/-- No instruction writes an input (R11, R12, R14). -/
theorem exec_inputsKept (h : exec i s = .next t) : s.InputsKept t := by
  have bytes (a : Nat) (ha : a < 0xC0) : t.readByte a = s.readByte a := exec_readByte_input h ha
  refine ⟨State.key_congr bytes, State.nonce_congr bytes, ?_⟩
  cases i with
  | deriveKey => rcases execDeriveKey_next h with ⟨-, rfl⟩ | ⟨-, rfl⟩ <;> exact ⟨rfl, rfl, rfl⟩
  | chk => rcases execChk_next h with ⟨_, _, _, -, rfl⟩ | ⟨-, -, rfl⟩ <;> exact ⟨rfl, rfl, rfl⟩
  | endOp => obtain rfl := execEnd_next h; exact ⟨rfl, rfl, rfl⟩
  | ldc | unpk | qr | pack =>
    obtain ⟨_, _, rfl, -⟩ := exec_advances h nofun nofun nofun
    exact ⟨rfl, rfl, rfl⟩

theorem sequencerStep_inputsKept (h : sequencerStep s = .next t) : s.InputsKept t := by
  rcases sequencerStep_next h with ⟨-, rfl⟩ | ⟨-, u, i, -, -, hx⟩
  · exact State.InputsKept.refl _
  · exact exec_inputsKept hx

/-- A step that is no reset keeps the inputs if the host access it may be does. -/
theorem step_inputsKept (h : step s = .next t) (hreset : ∀ rest, s.inputs ≠ .reset :: rest)
    (hhost : ∀ a rest, s.inputs = .host a :: rest → hostAccess a (s.withInputs rest) = .next t →
      (s.withInputs rest).InputsKept t) : s.InputsKept t := by
  rcases step_next h with ⟨-, hs⟩ | ⟨e, rest, hi, he⟩
  · exact sequencerStep_inputsKept hs
  · cases e with
    | host a => exact hhost a rest hi he
    | sequencer => exact sequencerStep_inputsKept (s := s.withInputs rest) he
    | reset => exact absurd hi (hreset rest)

/-- A step of the sequencer that changes a word of `X` runs a micro-operation with that destination. -/
theorem sequencerStep_readX_ne (h : sequencerStep s = .next t) {j : Idx} (hj : t.readX j ≠ s.readX j) :
    s.busy = true ∧ ∃ u i, s.fetch = some u ∧ decodeUop u = .ok i ∧ j ∈ writesX i := by
  rcases sequencerStep_next h with ⟨-, rfl⟩ | ⟨hb, u, i, hu, hd, hx⟩
  · exact absurd rfl hj
  · exact ⟨hb, u, i, hu, hd, Decidable.not_not.1 fun hw => hj (exec_readX hx hw)⟩

/-- A step of the sequencer that changes a byte of memory runs a `PACK` that stores there. -/
theorem sequencerStep_readByte_ne (h : sequencerStep s = .next t) {a : Nat} (ha : t.readByte a ≠ s.readByte a) :
    s.busy = true ∧ ∃ u x wo, s.fetch = some u ∧ decodeUop u = .ok (.pack x wo) ∧ outAddr wo ≤ a ∧
      a < outAddr wo + 4 := by
  rcases sequencerStep_next h with ⟨-, rfl⟩ | ⟨hb, u, i, hu, hd, hx⟩
  · exact absurd rfl ha
  · have stores : ∃ base, storesAt i = some base ∧ ¬(a < base ∨ base + 4 ≤ a) := by
      by_contra hno
      exact ha (exec_readByte hx fun base hbase => Decidable.not_not.1 fun hout => hno ⟨base, hbase, hout⟩)
    obtain ⟨base, hbase, hin⟩ := stores
    obtain ⟨x, wo, rfl, rfl⟩ := storesAt_eq_some hbase
    exact ⟨hb, u, x, wo, hu, hd, by omega, by omega⟩

/-- No host access changes a word of `X` (R10). -/
theorem hostAccess_readX {a : HostAccess} (h : hostAccess a s = .next t) (j : Idx) : t.readX j = s.readX j := by
  rcases hostAccess_next h with ⟨-, v, rfl⟩ | ⟨-, rfl⟩ | ⟨-, hw⟩
  · rfl
  · rfl
  · rcases hw with ⟨_, _, -, -, -, rfl⟩ | ⟨_, _, -, -, rfl⟩ | ⟨_, _, -, -, rfl⟩ | ⟨_, _, -, -, rfl⟩ |
      ⟨_, _, -, -, rfl⟩ <;> rfl

/-- A host access that changes a byte is a write of that byte, while idle (R11 to R13, R38). -/
theorem hostAccess_readByte_ne {a : HostAccess} (h : hostAccess a s = .next t) {k : Nat}
    (hk : t.readByte k ≠ s.readByte k) : s.busy = false ∧ ∃ b, a = .write8 k b := by
  rcases hostAccess_next h with ⟨-, v, rfl⟩ | ⟨-, rfl⟩ | ⟨hb, hw⟩
  · exact absurd rfl hk
  · exact absurd rfl hk
  · rcases hw with ⟨_, _, -, -, -, rfl⟩ | ⟨_, _, -, -, rfl⟩ | ⟨_, _, -, -, rfl⟩ | ⟨_, _, -, -, rfl⟩ |
      ⟨off, b, rfl, -, rfl⟩
    · exact absurd rfl hk
    · exact absurd rfl hk
    · exact absurd rfl hk
    · exact absurd rfl hk
    · have same : k = off := Decidable.not_not.1 fun hne => hk (s.readByte_writeByte_of_ne hne b)
      exact ⟨hb, b, same ▸ rfl⟩

end Sys2Proof.Machine
end

section
/-! The statements about who changes what (`10_state.md` R10 to R14; `20_memory.md` R37, R38). -/

namespace Sys2Proof.Machine

/-- Settles O38, shape by shape. -/
theorem hostAccessShapes : Obligations.HostAccessShapes := fun s _ =>
  ⟨fun h => hostAccess_isNext h s, fun h => hostAccess_refused h s⟩

/-- Settles O39: while busy an access answers a read or changes nothing, and the sequencer writes no input. -/
theorem runningCommandIgnoresTheHost : Obligations.RunningCommandIgnoresTheHost := by
  refine fun s hb => ⟨fun a rest hallowed hi => ?access, fun t hstep hreset => ?inputs⟩
  case access =>
    obtain ⟨t, ht⟩ := hostAccess_isNext hallowed (s.withInputs rest)
    rw [step_host hi, ht]
    rcases hostAccess_busy (s := s.withInputs rest) hb ht with ⟨hread, v, rfl⟩ | ⟨hwrite, rfl⟩
    · exact ⟨fun h => absurd (hread.symm.trans h) nofun, fun _ => ⟨v, rfl⟩⟩
    · exact ⟨fun _ => rfl, fun h => absurd (hwrite.symm.trans h) nofun⟩
  case inputs =>
    refine step_inputsKept hstep hreset fun a rest _ ht => ?_
    rcases hostAccess_busy (s := s.withInputs rest) hb ht with ⟨-, v, rfl⟩ | ⟨-, rfl⟩
    · exact State.InputsKept.refl (s.withInputs rest)
    · exact State.InputsKept.refl _

/-- Settles O45: what is left but the sequencer's step is a host read. -/
theorem coreNeverWritesItsInputs : Obligations.CoreNeverWritesItsInputs := by
  intro s t hstep hreset hwrite
  refine step_inputsKept hstep hreset fun a rest hi ht => ?_
  have hread : a.isWrite = false := Bool.eq_false_iff.2 fun h => hwrite a rest h hi
  rcases hostAccess_next ht with ⟨-, v, rfl⟩ | ⟨h, -⟩ | ⟨-, hw⟩
  · exact State.InputsKept.refl (s.withInputs rest)
  · exact absurd (hread.symm.trans h) nofun
  · rcases hw with ⟨_, _, rfl, -⟩ | ⟨_, _, rfl, -⟩ | ⟨_, _, rfl, -⟩ | ⟨_, _, rfl, -⟩ | ⟨_, _, rfl, -⟩ <;> cases hread

/-- Settles O46, by whose step it is. -/
theorem workingStateChangesByMicroOperationsOnly : Obligations.WorkingStateChangesByMicroOperationsOnly := by
  intro s t j hstep hj
  rcases step_next hstep with ⟨hi, hs⟩ | ⟨e, rest, hi, he⟩
  · exact .inr ⟨.inl hi, sequencerStep_readX_ne hs hj⟩
  · cases e with
    | host a => exact absurd (hostAccess_readX (s := s.withInputs rest) he j) hj
    | sequencer => exact .inr ⟨.inr ⟨rest, hi⟩, sequencerStep_readX_ne (s := s.withInputs rest) he hj⟩
    | reset => exact .inl ⟨rest, hi⟩

end Sys2Proof.Machine
end

section
/-! The invariant is kept by every operation a step can be (`10_state.md` R16 to R20; `30_encoding.md` R60). -/

namespace Sys2Proof.Machine

variable {s t : State}

/-! ### The host's operations and reset -/

/-- A core whose status, record and counters are cleared, as a reset and an accepted `START` leave them, idle or
busy. -/
theorem State.inv_of_cleared (hm : Memory.wf s.mem = true) (hp : s.prog = urom) (hdone : s.done = false)
    (herror : s.error = false) (hparam : s.errParam = .none) (hactual : s.errActual = 0#32)
    (hexpected : s.errExpected = 0#32) (hupc : s.upc = 0#7) (hcount : s.qrCount = 0#7) : s.Inv where
  memWf := hm
  prog := hp
  upc_le := by rw [hupc]; exact Nat.zero_le _
  oneStatus := by simp [hdone, herror]
  errorIff := by simp [hparam, herror]
  errorLegal := by rw [hparam]; exact ⟨hactual, hexpected⟩
  count := by rw [hupc, hcount]; rfl
  idle := by rw [hdone]; exact fun _ => hupc
  lengths := fun _ hu => absurd hupc hu

theorem State.reset_inv : State.reset.Inv :=
  State.inv_of_cleared Memory.reset_wf rfl rfl rfl rfl rfl rfl rfl rfl

/-- A reset leaves the control state of the first one (R140). -/
theorem State.Inv.resetEvent (h : s.Inv) : s.resetEvent.Inv :=
  State.inv_of_cleared rfl (s.resetEvent_prog.trans h.prog) rfl rfl rfl rfl rfl rfl rfl

/-- An accepted `START` clears the status and the record and begins at word 0 (R71). -/
theorem State.Inv.start (h : s.Inv) : s.start.Inv :=
  State.inv_of_cleared h.memWf h.prog rfl rfl rfl rfl rfl rfl rfl

/-- The model's own fields are in no clause but that of the micro-program. -/
theorem State.Inv.withInputs (h : s.Inv) (rest : List Event) : (s.withInputs rest).Inv := { h with }

theorem State.Inv.answer (h : s.Inv) (v : HostData) : (s.answer v).Inv := { h with }

/-- While idle the host may change the buffers and the lengths: the clause about these holds of a running command. -/
theorem State.Inv.hostWrite (h : s.Inv) (hb : s.busy = false) {mem : List Host.Cell} (hm : Memory.wf mem = true)
    (o k n : Word) : State.Inv { s with mem := mem, outLen := o, keyLen := k, nonceLen := n } :=
  { h with memWf := hm, lengths := fun hbusy => absurd (hb.symm.trans hbusy) nofun }

theorem State.Inv.of_hostAccess {a : HostAccess} (h : s.Inv) (ht : hostAccess a s = .next t) : t.Inv := by
  rcases hostAccess_next ht with ⟨-, v, rfl⟩ | ⟨-, rfl⟩ | ⟨hb, hw⟩
  · exact h.answer v
  · exact h
  · rcases hw with ⟨_, _, -, -, -, rfl⟩ | ⟨_, w, -, -, rfl⟩ | ⟨_, w, -, -, rfl⟩ | ⟨_, w, -, -, rfl⟩ |
      ⟨off, b, -, hbuf, rfl⟩
    · exact h.start
    · exact h.hostWrite hb h.memWf w s.keyLen s.nonceLen
    · exact h.hostWrite hb h.memWf s.outLen w s.nonceLen
    · exact h.hostWrite hb h.memWf s.outLen s.keyLen w
    · exact h.hostWrite hb (Memory.wf_write b hbuf h.memWf) s.outLen s.keyLen s.nonceLen

/-! ### The sequencer's operations -/

theorem State.Inv.inCommand (h : s.Inv) (hb : s.busy = true) (hl : s.lengthError = none) : s.InCommand :=
  ⟨hb, h.prog, h.upc_le, h.count, hl⟩

theorem State.Inv.not_done (h : s.Inv) (hb : s.busy = true) : s.done = false :=
  Bool.eq_false_iff.2 fun hd => h.oneStatus.1 ⟨hb, hd⟩

theorem State.Inv.not_error (h : s.Inv) (hb : s.busy = true) : s.error = false :=
  Bool.eq_false_iff.2 fun he => h.oneStatus.2.1 ⟨hb, he⟩

/-- A wrong length is met at word 0 (R72). -/
theorem State.Inv.upc_eq_zero (h : s.Inv) (hb : s.busy = true) {e : ErrParam × Word × Word}
    (hl : s.lengthError = some e) : s.upc = 0#7 :=
  Decidable.not_not.1 fun hu => absurd ((h.lengths hb hu).symm.trans hl) nofun

/-- `CHK` raising `InvalidLength` (R123). -/
theorem State.Inv.raiseInvalidLength (h : s.Inv) (hb : s.busy = true) {p : ErrParam} {actual expected : Word}
    (hl : s.lengthError = some (p, actual, expected)) : (s.raiseInvalidLength p actual expected).Inv where
  memWf := h.memWf
  prog := h.prog
  upc_le := h.upc_le
  oneStatus := ⟨nofun, nofun, fun hd => absurd ((h.not_done hb).symm.trans hd.1) nofun⟩
  errorIff := iff_of_true (State.lengthError_legal hl).1 rfl
  errorLegal := (State.lengthError_legal hl).2
  count := h.count
  idle := fun _ => by
    show s.upc = if s.done then 105#7 else 0#7
    rw [h.not_done hb, h.upc_eq_zero hb hl]
    rfl
  lengths := nofun

/-- `END` at the last word (R103). -/
theorem State.Inv.finish (h : s.Inv) (hb : s.busy = true) (hu : s.upc.toNat = 105) : s.finish.Inv where
  memWf := h.memWf
  prog := h.prog
  upc_le := h.upc_le
  oneStatus := ⟨nofun, nofun, fun he => absurd ((h.not_error hb).symm.trans he.2) nofun⟩
  errorIff := h.errorIff
  errorLegal := h.errorLegal
  count := h.count
  idle := fun _ => BitVec.eq_of_toNat_eq hu
  lengths := nofun

/-- A micro-operation that goes on to the next word of a command with right lengths. -/
theorem State.Inv.advance (h : s.Inv) (hc : s.InCommand) (hu : s.upc.toNat < 105) (x : Words)
    {mem : List Host.Cell} (hm : Memory.wf mem = true) {q : BitVec 7} (hq : q.toNat = qrsBefore (s.upc + 1#7).toNat) :
    State.Inv { s with x := x, mem := mem, qrCount := q, upc := s.upc + 1#7 } :=
  { h with
    memWf := hm
    upc_le := by show (s.upc + 1#7).toNat ≤ 105; rw [toNat_upc_succ hu]; omega
    count := hq
    idle := fun hidle => absurd (hc.busy.symm.trans hidle) nofun
    lengths := fun _ _ => hc.lengths }

/-- From the invariant the sequencer's step has four outcomes: none while idle; `InvalidLength` at word 0; the next word;
the end. Each of them is a next state and keeps the invariant. -/
theorem State.Inv.sequencerStep_isNext (h : s.Inv) : ∃ t, sequencerStep s = .next t ∧ t.Inv := by
  cases hb : s.busy with
  | false => exact ⟨s, sequencerStep_idle hb, h⟩
  | true =>
    cases hl : s.lengthError with
    | some e =>
      obtain ⟨p, actual, expected⟩ := e
      have hu : s.upc = 0#7 := h.upc_eq_zero hb hl
      have chk : sequencerStep s = exec .chk s := by rw [sequencerStep_urom hb h.prog h.upc_le, hu]; rfl
      exact ⟨_, chk.trans (execChk_of_error hl), h.raiseInvalidLength hb hl⟩
    | none =>
      have hc : s.InCommand := h.inCommand hb hl
      rcases Nat.lt_or_ge s.upc.toNat 105 with before | last
      · obtain ⟨x, mem, q, hstep, hm, hq⟩ := hc.sequencerStep_eq before
        exact ⟨_, hstep, h.advance hc before x (hm h.memWf) hq⟩
      · have hu : s.upc.toNat = 105 := Nat.le_antisymm h.upc_le last
        exact ⟨_, hc.sequencerStep_end hu, h.finish hb hu⟩

theorem State.Inv.of_sequencerStep (h : s.Inv) (ht : sequencerStep s = .next t) : t.Inv := by
  obtain ⟨r, hr, hinv⟩ := h.sequencerStep_isNext
  rw [hr] at ht
  cases ht
  exact hinv

end Sys2Proof.Machine
end

section
/-! The statements about the invariant and what follows from it (`10_state.md` R13; `60_exceptions.md` R126;
`70_reset_and_hazards.md` R152). -/

namespace Sys2Proof.Machine

/-- Settles O48, clause by clause. -/
theorem resetMeetsTheInvariant : Obligations.ResetMeetsTheInvariant := State.reset_inv

/-- Settles O49, by whose step it is. -/
theorem stepKeepsTheInvariant : Obligations.StepKeepsTheInvariant := by
  intro s t h hstep
  rcases step_next hstep with ⟨-, hs⟩ | ⟨e, rest, -, he⟩
  · exact h.of_sequencerStep hs
  · have h' : (s.withInputs rest).Inv := h.withInputs rest
    cases e with
    | host a => exact h'.of_hostAccess he
    | sequencer => exact h'.of_sequencerStep he
    | reset =>
      rw [event_reset, Host.Outcome.next.injEq] at he
      exact he ▸ h'.resetEvent

/-- Settles O50: the sequencer's step answers from the invariant, an allowed host access and a reset in every state. -/
theorem hardwareNeverRefuses : Obligations.HardwareNeverRefuses := by
  intro s h hallowed
  have sequencer {r : State} (hr : r.Inv) : ∃ t, sequencerStep r = .next t :=
    hr.sequencerStep_isNext.imp fun _ ht => ht.1
  cases hi : s.inputs with
  | nil => rw [step_no_inputs hi]; exact sequencer h
  | cons e rest =>
    rw [step_cons hi]
    cases e with
    | host a => exact hostAccess_isNext (hallowed a rest hi) _
    | sequencer => exact sequencer (h.withInputs rest)
    | reset => exact ⟨_, rfl⟩

/-- Settles O36: with right lengths the command runs to its last word; with a wrong one its first step raises
`InvalidLength`. -/
theorem everyCommandEnds : Obligations.EveryCommandEnds := by
  intro s h hb hi
  cases hl : s.lengthError with
  | none =>
    obtain ⟨t, hrun, hidle, hdone, hu⟩ := (h.inCommand hb hl).runSteps_end hi 0
    exact ⟨105 - s.upc.toNat + 1 + 0, by omega, t, hrun, hidle, .inl ⟨hdone, hu⟩⟩
  | some e =>
    obtain ⟨p, actual, expected⟩ := e
    have hu : s.upc = 0#7 := h.upc_eq_zero hb hl
    have running : Running s := ⟨hb, hi, h.prog⟩
    exact ⟨1, by decide, _, running.runSteps_chk_error hu hl, rfl, .inr ⟨rfl, hu⟩⟩

/-- A `PACK` of the hardware is past the length check. -/
theorem State.Inv.lengths_of_pack {s : State} (h : s.Inv) (hb : s.busy = true) {u : Word} {x : Idx} {wo : Fin 8}
    (hu : s.fetch = some u) (hd : decodeUop u = .ok (.pack x wo)) : s.lengthError = none := by
  refine h.lengths hb fun h0 => ?_
  obtain ⟨u', hu', hd'⟩ := urom_fetch h.prog h.upc_le
  obtain rfl : u = u' := Option.some.inj (hu.symm.trans hu')
  rw [hd, h0] at hd'
  cases hd'

/-- What the sequencer changes of `OUT` (R13): the group a `PACK` stores, once the lengths are checked. -/
theorem State.Inv.sequencerStep_out_ne {s t : State} (h : s.Inv) (hs : sequencerStep s = .next t) {k : Fin 32}
    (hk : t.readByte (0xC0 + k.val) ≠ s.readByte (0xC0 + k.val)) : s.busy = true ∧
      s.outLen = 32#32 ∧ s.keyLen = 32#32 ∧ s.nonceLen = 16#32 ∧
      ∃ u i wo, s.fetch = some u ∧ decodeUop u = .ok (.pack i wo) ∧ wo.val = k.val / 4 := by
  obtain ⟨hb, u, i, wo, hu, hd, hlo, hhi⟩ := sequencerStep_readByte_ne hs hk
  obtain ⟨ho, hkl, hn⟩ := State.lengthError_none.1 (h.lengths_of_pack hb hu hd)
  have group : wo.val = k.val / 4 := by
    unfold outAddr outBase at hlo hhi
    omega
  exact ⟨hb, ho, hkl, hn, u, i, wo, hu, hd, group⟩

/-- Settles O47, by whose step it is. -/
theorem outChangesOnlyAfterTheCheck : Obligations.OutChangesOnlyAfterTheCheck := by
  intro s t k h hstep hk
  rcases step_next hstep with ⟨hi, hs⟩ | ⟨e, rest, hi, he⟩
  · exact .inr (.inr ⟨.inl hi, h.sequencerStep_out_ne hs hk⟩)
  · cases e with
    | host a =>
      obtain ⟨hb, b, rfl⟩ := hostAccess_readByte_ne (s := s.withInputs rest) he hk
      exact .inr (.inl ⟨hb, b, rest, hi⟩)
    | sequencer => exact .inr (.inr ⟨.inr ⟨rest, hi⟩, (h.withInputs rest).sequencerStep_out_ne he hk⟩)
    | reset => exact .inl ⟨rest, hi⟩

end Sys2Proof.Machine
end

section
/-! The halves of a rotate do not overlap (`44_quarter_round.md` R114), and the packer undoes the unpacker
(`20_memory.md` R33). -/

namespace Sys2Proof.Machine

/-- The left half is 0 below bit `n`, the right half from bit `n` up. -/
theorem rotate_halves_disjoint (x : Word) {n : Nat} (h : n ≤ 31) : (x <<< n) &&& (x >>> (32 - n)) = 0#32 := by
  apply BitVec.eq_of_getLsbD_eq
  intro j hj
  rw [BitVec.getLsbD_and, BitVec.getLsbD_shiftLeft, BitVec.getLsbD_ushiftRight, BitVec.getLsbD_zero]
  rcases Nat.lt_or_ge j n with low | high
  · simp [low]
  · rw [BitVec.getLsbD_of_ge x (32 - n + j) (by omega), Bool.and_false]

/-- Where no bit is set in both words, or is exclusive or. -/
theorem xor_eq_or_of_and_eq_zero {x y : Word} (h : x &&& y = 0#32) : x ^^^ y = x ||| y := by
  apply BitVec.eq_of_getLsbD_eq
  intro j _
  have both : (x.getLsbD j && y.getLsbD j) = false := by rw [← BitVec.getLsbD_and, h, BitVec.getLsbD_zero]
  rw [BitVec.getLsbD_xor, BitVec.getLsbD_or]
  revert both
  cases x.getLsbD j <;> cases y.getLsbD j <;> decide

theorem byteOfWord_eq {w : Word} {n : Nat} {b : Byte} (h : w.toNat / 2 ^ (8 * n) % 2 ^ 8 = b.toNat) :
    byteOfWord w n = b :=
  BitVec.eq_of_toNat_eq ((byteOfWord_toNat w n).trans h)

/-- Settles O22: the halves do not overlap. -/
theorem rotateByOrXorOrAdd : Obligations.RotateByOrXorOrAdd := by
  intro x n h
  have disjoint : (x <<< n) &&& (x >>> (32 - n)) = 0#32 := rotate_halves_disjoint x h.2
  exact ⟨(xor_eq_or_of_and_eq_zero disjoint).symm, (BitVec.add_eq_or_of_and_eq_zero _ _ disjoint).symm⟩

/-- Settles O25: both directions by the digits in base `2^8`. -/
theorem packingUndoesUnpacking : Obligations.PackingUndoesUnpacking := by
  refine ⟨fun w n _ => byteOfWord_toNat w n, fun w => BitVec.eq_of_toNat_eq ?word, fun b0 b1 b2 b3 => ?bytes⟩
  case word =>
    rw [le32_toNat, byteOfWord_toNat, byteOfWord_toNat, byteOfWord_toNat, byteOfWord_toNat]
    omega
  case bytes =>
    have value := le32_toNat b0 b1 b2 b3
    exact ⟨byteOfWord_eq (by omega), byteOfWord_eq (by omega), byteOfWord_eq (by omega), byteOfWord_eq (by omega)⟩

end Sys2Proof.Machine
end

section
/-! Quarter-rounds over disjoint tuples commute (`42_state_mixer.md` R97). -/

namespace Sys2Proof.Machine

/-- The indices of a tuple. -/
def Tuple.indices : Tuple → List Idx
  | (a, b, c, d) => [a, b, c, d]

/-- A quarter-round writes the words of its tuple only. -/
theorem quarterRoundOver_getElem_of_notMem (x : Words) (t : Tuple) {j : Idx} (hj : j ∉ t.indices) :
    (quarterRoundOver x t)[j] = x[j] := by
  obtain ⟨a, b, c, d⟩ := t
  simp only [Tuple.indices, List.mem_cons, List.not_mem_nil, or_false, not_or, ← Fin.val_inj] at hj
  obtain ⟨ha, hb, hc, hd⟩ := hj
  simp only [quarterRoundOver, Fin.getElem_fin]
  rw [Vector.getElem_set_ne _ _ (Ne.symm hd), Vector.getElem_set_ne _ _ (Ne.symm hc),
    Vector.getElem_set_ne _ _ (Ne.symm hb), Vector.getElem_set_ne _ _ (Ne.symm ha)]

/-- What a quarter-round writes is a function of the words of its tuple. -/
theorem quarterRoundOver_getElem_congr {x y : Words} (t : Tuple) (h : ∀ i ∈ t.indices, x[i] = y[i]) {j : Idx}
    (hj : j ∈ t.indices) : (quarterRoundOver x t)[j] = (quarterRoundOver y t)[j] := by
  obtain ⟨a, b, c, d⟩ := t
  have ha : x[a] = y[a] := h a (by simp [Tuple.indices])
  have hb : x[b] = y[b] := h b (by simp [Tuple.indices])
  have hc : x[c] = y[c] := h c (by simp [Tuple.indices])
  have hd : x[d] = y[d] := h d (by simp [Tuple.indices])
  have hxy : x[j] = y[j] := h j hj
  simp only [quarterRoundOver, ha, hb, hc, hd, Fin.getElem_fin, Vector.getElem_set]
  rw [Fin.getElem_fin, Fin.getElem_fin] at hxy
  rw [hxy]

/-- A word of one tuple is left by the quarter-round over the other, whichever comes first; any other word by both. -/
theorem quarterRoundOver_comm_getElem {t u : Tuple} (disjoint : ∀ j ∈ t.indices, j ∉ u.indices) (x : Words) (j : Idx) :
    (quarterRoundOver (quarterRoundOver x t) u)[j] = (quarterRoundOver (quarterRoundOver x u) t)[j] := by
  have tKept : ∀ i ∈ t.indices, x[i] = (quarterRoundOver x u)[i] := fun i hi =>
    (quarterRoundOver_getElem_of_notMem x u (disjoint i hi)).symm
  have uKept : ∀ i ∈ u.indices, (quarterRoundOver x t)[i] = x[i] := fun i hi =>
    quarterRoundOver_getElem_of_notMem x t fun ht => disjoint i ht hi
  by_cases ht : j ∈ t.indices
  · rw [quarterRoundOver_getElem_of_notMem _ u (disjoint j ht), quarterRoundOver_getElem_congr t tKept ht]
  · rw [quarterRoundOver_getElem_of_notMem _ t ht]
    by_cases hu : j ∈ u.indices
    · exact quarterRoundOver_getElem_congr u uKept hu
    · rw [quarterRoundOver_getElem_of_notMem _ u hu, quarterRoundOver_getElem_of_notMem x t ht,
        quarterRoundOver_getElem_of_notMem x u hu]

theorem quarterRoundOver_comm {t u : Tuple} (disjoint : ∀ j ∈ t.indices, j ∉ u.indices) (x : Words) :
    quarterRoundOver (quarterRoundOver x t) u = quarterRoundOver (quarterRoundOver x u) t :=
  Vector.ext fun k hk => quarterRoundOver_comm_getElem disjoint x ⟨k, hk⟩

/-- The quarter-rounds over pairwise disjoint tuples give the same in any order. -/
theorem applyTuples_perm {ts us : List Tuple} (hp : ts.Perm us)
    (disjoint : ∀ t ∈ us, ∀ u ∈ us, t ≠ u → ∀ j ∈ t.indices, j ∉ u.indices) (x : Words) :
    applyTuples x ts = applyTuples x us := by
  refine hp.foldl_eq' (fun t ht u hu z => ?_) x
  by_cases h : t = u
  · rw [h]
  · exact quarterRoundOver_comm (disjoint t (hp.mem_iff.1 ht) u (hp.mem_iff.1 hu) h) z

theorem colTuples_disjoint : ∀ t ∈ colTuples, ∀ u ∈ colTuples, t ≠ u → ∀ j ∈ t.indices, j ∉ u.indices := by decide

theorem diagTuples_disjoint : ∀ t ∈ diagTuples, ∀ u ∈ diagTuples, t ≠ u → ∀ j ∈ t.indices, j ∉ u.indices := by
  decide

/-- Settles O26: the tuples of a pass are disjoint. -/
theorem passOrderDoesNotMatter : Obligations.PassOrderDoesNotMatter := fun x _ =>
  ⟨fun hp => applyTuples_perm hp colTuples_disjoint x, fun hp => applyTuples_perm hp diagTuples_disjoint x⟩

end Sys2Proof.Machine
end

section
/-! The statements about the parts of `UROM` and about the output (`41_init_unpack.md` R83; `42_state_mixer.md` R98;
`43_extract_pack.md` R100, R104). -/

namespace Sys2Proof.Machine

/-- Settles O27: it is the run of `INIT` that whole commands are made of. -/
theorem initWordsInitialise : Obligations.InitWordsInitialise := fun _ hb hi hp hu =>
  Running.runSteps_init ⟨hb, hi, hp⟩ hu

/-- Settles O28: it is the run of one double-round that whole commands are made of. -/
theorem eightQrWordsAreADoubleRound : Obligations.EightQrWordsAreADoubleRound := fun _ _ hr hb hi hp hu hc =>
  Running.runSteps_doubleRound ⟨hb, hi, hp⟩ hr hu hc

theorem mem_take_finRange {n m : Nat} {k : Fin n} : k ∈ (List.finRange n).take m ↔ k.val < m := by
  rw [List.mem_take_iff_getElem]
  constructor
  · rintro ⟨i, hi, rfl⟩
    rw [List.getElem_finRange]
    exact Nat.lt_of_lt_of_le hi (Nat.min_le_left _ _)
  · intro hk
    exact ⟨k.val, by rw [List.length_finRange]; omega, List.getElem_finRange ..⟩

/-- What writing the first `n` bytes of `OUT` does to every byte of it. -/
theorem State.readByte_writeOutUpTo (s : State) (o : Vector Byte 32) (n : Nat) (k : Fin 32) :
    (s.writeOutUpTo o n).readByte (outBase + k.val) = if k.val < n then o[k] else s.readByte (outBase + k.val) := by
  refine ((writeOut_fold o _ s).2 _).trans ?_
  have written : (∃ j ∈ (List.finRange 32).take n, outBase + k.val = outBase + j.val) ↔ k.val < n := by
    simp only [Nat.add_left_cancel_iff, Fin.val_inj, exists_eq_right', mem_take_finRange]
  simp only [written, Nat.add_sub_cancel_left]
  rfl

theorem State.readByte_writeOutUpTo_of_outside (s : State) (o : Vector Byte 32) (n : Nat) {a : Nat}
    (ha : a < 0xC0 ∨ 0xE0 ≤ a) : (s.writeOutUpTo o n).readByte a = s.readByte a := by
  refine ((writeOut_fold o _ s).2 a).trans (dif_neg ?_)
  rintro ⟨j, -, hj⟩
  unfold outBase at hj
  omega

/-- Settles O29: the run has written the first `4m` bytes of the output. -/
theorem packWordsFillOutInOrder : Obligations.PackWordsFillOutInOrder := by
  intro s m hm hb hi hp hu
  have bytes (a : Nat) : (s.writeOutUpTo (extract s.x) (4 * m)).readByte a =
      State.readByte { s with mem := (s.writeOutUpTo (extract s.x) (4 * m)).mem } a :=
    congrArg (fun t => State.readByte t a) (s.writeOutUpTo_eq (extract s.x) (4 * m))
  exact ⟨_, Running.runSteps_extract ⟨hb, hi, hp⟩ hu hm, rfl,
    fun k => (bytes _).symm.trans (s.readByte_writeOutUpTo (extract s.x) (4 * m) k),
    fun a ha => (bytes a).symm.trans (s.readByte_writeOutUpTo_of_outside (extract s.x) (4 * m) ha)⟩

theorem outSel_outer : ∀ m : Fin 8, (outSel m).val < 4 ∨ 12 ≤ (outSel m).val := by decide

/-- Settles O30: every byte is one of a word that `OUTSEL` selects. -/
theorem outputIgnoresTheMiddleWords : Obligations.OutputIgnoresTheMiddleWords := by
  intro x y h
  refine Vector.ext fun k hk => ?_
  simp only [extract, Vector.getElem_ofFn]
  rw [h _ (outSel_outer _)]

end Sys2Proof.Machine
end

section
/-! The statements about a step of the sequencer (`30_encoding.md` R65) and about the ends of a command
(`43_extract_pack.md` R103; `60_exceptions.md` R123). -/

namespace Sys2Proof.Machine

variable {s : State}

/-- The word of a command has bit 0 set (R51). -/
theorem decodeCommand_ok {w : Word} {i : Instr} (h : decodeCommand w = .ok i) :
    w.getLsbD 0 = true ∧ i = .deriveKey := by
  unfold decodeCommand at h
  split at h
  · cases h; exact ⟨‹_›, rfl⟩
  · cases h

/-- Settles O6: the sequencer's rules for a busy core, and for a command the host port's (O9). -/
theorem stepRunsTheDecodedInstruction : Obligations.StepRunsTheDecodedInstruction := by
  refine ⟨fun s u i hb hu hd => ⟨fun hi => ?noEvent, fun rest hi => ?scheduled⟩, fun s w i rest hi hd => ?command⟩
  case noEvent => rw [step_no_inputs hi, sequencerStep_busy hb hu, runWord_ok hd]
  case scheduled =>
    rw [step_cons hi, event_sequencer, sequencerStep_busy (s := s.withInputs rest) hb hu, runWord_ok hd]
  case command =>
    obtain ⟨hw, rfl⟩ := decodeCommand_ok hd
    obtain ⟨-, -, command⟩ := startIsAcceptedWhileIdle s
    exact command w rest hw hi

/-- Settles O7, by what takes the step: no event, or the one that schedules the sequencer. -/
theorem idleSequencerHasNoStep : Obligations.IdleSequencerHasNoStep := fun s hb =>
  ⟨fun hi => (step_no_inputs hi).trans (sequencerStep_idle hb),
    fun rest hi => (step_cons hi).trans (sequencerStep_idle (s := s.withInputs rest) hb)⟩

theorem sequencerStep_beyond (hb : s.busy = true) (hf : s.fetch = none) :
    sequencerStep s = .refused .fetchBeyondProgram := by
  unfold sequencerStep
  rw [hb, hf]
  rfl

theorem State.advance_of_last (h : s.upc = 127#7) : s.advance = .refused .upcOverflow := if_pos h

/-- Settles O8: a micro-operation whose other checks pass is its advance, which is refused at the last `UPC`. -/
theorem runningOffTheProgramIsRefused : Obligations.RunningOffTheProgramIsRefused := by
  refine ⟨fun s hi hb hf => (step_no_inputs hi).trans (sequencerStep_beyond hb hf), fun s hu =>
    ⟨fun hl => ?chk, fun i k => ?ldc, fun i src wo hs => ?unpk, fun a b c d distinct hq => ?qr, fun i wo => ?pack⟩⟩
  case chk =>
    show execChk s = _
    unfold execChk
    rw [hl]
    exact State.advance_of_last hu
  case ldc => exact State.advance_of_last (s := s.writeX i _) hu
  case unpk =>
    show execUnpk i src wo s = _
    unfold execUnpk
    rw [if_pos hs]
    exact State.advance_of_last (s := s.writeX i _) hu
  case qr =>
    show execQr a b c d s = _
    unfold execQr
    rw [if_pos distinct, if_neg hq]
    exact State.advance_of_last (s := (s.writeQuad a b c d _).countQr) hu
  case pack => exact State.advance_of_last (s := s.writeWordLE _ _) hu

/-- Settles O16: the state `END` answers is idle. -/
theorem endFinishesTheCommand : Obligations.EndFinishesTheCommand := fun s =>
  ⟨s.finish, rfl, rfl, sequencerStep_idle rfl⟩

/-! ### The status and the error record as the host reads them (R16, R17) -/

theorem statusWord_bits : ∀ busy done error : Bool,
    let w := flagBit busy 0 ||| flagBit done 1 ||| flagBit error 2
    w.toNat = busy.toNat + 2 * done.toNat + 4 * error.toNat ∧ w.getLsbD 0 = busy ∧ w.getLsbD 2 = error := by decide

theorem ErrParam.code_ne_zero {p : ErrParam} (h : p ≠ .none) : p.code ≠ 0#32 := by
  cases p with
  | none => exact absurd rfl h
  | output | inputKey | nonce => decide

/-- Settles O11: `CHK` answers the raised error, whose fields the host reads. -/
theorem invalidLengthStopsTheCommand : Obligations.InvalidLengthStopsTheCommand := by
  intro s p actual expected hl
  obtain ⟨-, busyBit, errorBit⟩ := statusWord_bits false s.done true
  exact ⟨s.raiseInvalidLength p actual expected, execChk_of_error hl, rfl, sequencerStep_idle rfl, busyBit, errorBit,
    ErrParam.code_ne_zero (State.lengthError_legal hl).1, rfl, rfl⟩

/-- Settles O44: each offset holds its register, and a read answers it. -/
theorem controlRegistersReadTheirFields : Obligations.ControlRegistersReadTheirFields := by
  refine fun s => ⟨s.statusWord, s.errParam.code, (statusWord_bits s.busy s.done s.error).1, ?code, ?registers⟩
  case code => cases s.errParam <;> rfl
  case registers =>
    simp only [List.forall_mem_cons]
    exact ⟨hostAccess_read32 (r := .status) s rfl, hostAccess_read32 (r := .outLen) s rfl,
      hostAccess_read32 (r := .keyLen) s rfl, hostAccess_read32 (r := .nonceLen) s rfl,
      hostAccess_read32 (r := .errParam) s rfl, hostAccess_read32 (r := .errActual) s rfl,
      hostAccess_read32 (r := .errExpected) s rfl, hostAccess_read32 (r := .outputSize) s rfl,
      hostAccess_read32 (r := .keySize) s rfl, hostAccess_read32 (r := .nonceSize) s rfl, nofun⟩

end Sys2Proof.Machine
end

section
/-! What the host writes it reads back (`10_state.md` R11 to R14; `20_memory.md` R37, R38). -/

namespace Sys2Proof.Machine

variable {s t u : State}

theorem runSteps_two (first : step s = .next t) (second : step t = .next u) : runSteps 2 s = .next u :=
  (runSteps_succ_of_next first).trans (runSteps_succ_of_next (n := 0) second)

/-- A register that takes a write while idle is read back at the same offset. -/
theorem runSteps_write32_read32 {off : Nat} {r : HostReg} {w : Word} {rest : List Event} (hr : regAt off = some r)
    (hb : s.busy = false) (hi : s.inputs = .host (.write32 off w) :: .host (.read32 off) :: rest)
    (hw : writeReg r w (s.withInputs (.host (.read32 off) :: rest)) = .next t)
    (ht : t.inputs = .host (.read32 off) :: rest) :
    runSteps 2 s = .next ((t.withInputs rest).answer (.word ((t.withInputs rest).readReg r))) := by
  have idle : (s.withInputs (.host (.read32 off) :: rest)).busy = false := hb
  have write : step s = .next t := by
    rw [step_host hi, hostAccess_write32 w _ hr, whenIdle_of_idle _ idle, hw]
  exact runSteps_two write ((step_host ht).trans (hostAccess_read32 _ hr))

/-- Settles O40: each length register takes the word. -/
theorem lengthRegistersReadBack : Obligations.LengthRegistersReadBack := fun _ _ _ hb =>
  ⟨fun hi => runSteps_write32_read32 (r := .outLen) rfl hb hi rfl rfl,
    fun hi => runSteps_write32_read32 (r := .keyLen) rfl hb hi rfl rfl,
    fun hi => runSteps_write32_read32 (r := .nonceLen) rfl hb hi rfl rfl⟩

/-- Settles O54: the host port does not look at `BUSY` for a read. -/
theorem bufferReadsAnswerTheCurrentByte : Obligations.BufferReadsAnswerTheCurrentByte := by
  intro s off hoff
  have buffer : isBufferAddr off = true := (isBufferAddr_iff off).2 hoff
  exact ⟨hostAccess_read8 s buffer, fun rest hi => (step_host hi).trans (hostAccess_read8 _ buffer)⟩

/-- Settles O41: the write is done, since the core is idle, and the read answers the byte written. -/
theorem bufferBytesReadBack : Obligations.BufferBytesReadBack := by
  intro s off b rest hb hoff hi
  have buffer : isBufferAddr off = true := (isBufferAddr_iff off).2 hoff
  have idle : (s.withInputs (.host (.read8 off) :: rest)).busy = false := hb
  have write : step s = .next ((s.withInputs (.host (.read8 off) :: rest)).writeByte off b) := by
    rw [step_host hi, hostAccess_write8 b _ buffer, whenIdle_of_idle _ idle]
  obtain ⟨-, read⟩ := bufferReadsAnswerTheCurrentByte
    ((s.withInputs (.host (.read8 off) :: rest)).writeByte off b) off hoff
  rw [State.readByte_writeByte_self] at read
  exact ⟨_, runSteps_two write (read rest rfl), rfl, s.readByte_writeByte_self off b,
    fun _ ha => s.readByte_writeByte_of_ne ha b⟩

end Sys2Proof.Machine
end

section
/-! The statements about reset (`10_state.md` R24; `70_reset_and_hazards.md` R140, R142). -/

namespace Sys2Proof.Machine

variable {s : State}

theorem resetWords_getElem (draw : Nat) (i : Idx) : (resetWords draw)[i] = Config.resetX draw i.val := by
  simp [resetWords]

theorem State.readByte_of_mem_nil (hm : s.mem = []) (a : Nat) : s.readByte a = Memory.unlisted s.resetDraws a := by
  unfold State.readByte
  rw [hm]
  rfl

theorem unlisted_key (draw : Nat) {k : Nat} (hk : k < 32) :
    Memory.unlisted draw (0x80 + k) = Config.resetKey draw k := by
  unfold Memory.unlisted nonceBase keyBase
  rw [if_pos (by omega), Nat.add_sub_cancel_left]

theorem unlisted_nonce (draw : Nat) {k : Nat} (hk : k < 16) :
    Memory.unlisted draw (0xA0 + k) = Config.resetNonce draw k := by
  unfold Memory.unlisted nonceBase outBase
  rw [if_neg (by omega), if_pos (by omega), Nat.add_sub_cancel_left]

theorem unlisted_out (draw k : Nat) : Memory.unlisted draw (0xC0 + k) = Config.resetOut draw k := by
  unfold Memory.unlisted nonceBase outBase
  rw [if_neg (by omega), if_neg (by omega), Nat.add_sub_cancel_left]

/-- Settles O52: the pending reset answers `resetEvent`, whose memory lists nothing. -/
theorem resetEventAborts : Obligations.ResetEventAborts := by
  intro s rest hi
  have bytes (a : Nat) : (s.withInputs rest).resetEvent.readByte a = Memory.unlisted (s.resetDraws + 1) a :=
    State.readByte_of_mem_nil rfl a
  exact ⟨(s.withInputs rest).resetEvent, step_cons hi, rfl, resetWords_getElem (s.resetDraws + 1),
    fun k _ => (bytes _).trans (unlisted_out _ k), fun _ hk => (bytes _).trans (unlisted_key _ hk),
    fun _ hk => (bytes _).trans (unlisted_nonce _ hk), sequencerStep_idle rfl⟩

/-- Settles O51: the registers are written out in `State.reset`, the memory lists nothing, and the command fails at
`CHK` (O33), the length of `output` being 0. -/
theorem resetLeaves : Obligations.ResetLeaves := by
  have bytes (a : Nat) : State.reset.readByte a = Memory.unlisted 0 a := State.readByte_of_mem_nil rfl a
  have command := failedCommandTouchesNothing (State.reset.withInputs [.host (.write32 0x00 1#32)]) 1#32 .output
    0#32 32#32 rfl rfl rfl rfl (.inl ⟨by decide, rfl⟩)
  exact ⟨rfl, rfl, rfl, rfl, rfl, rfl, rfl, rfl, rfl, rfl, rfl, rfl, rfl, rfl, resetWords_getElem 0,
    fun _ hk => (bytes _).trans (unlisted_key 0 hk), fun _ hk => (bytes _).trans (unlisted_nonce 0 hk),
    fun k _ => (bytes _).trans (unlisted_out 0 k), command⟩

end Sys2Proof.Machine
end
